-- ==== Sys2Proof/Word.lean ====
section
/-! DEFINITION. The word types of the core: bytes, 16-bit words and the encoded fields (00_scope.md R8, 30_encoding.md R61).
Every value is unsigned (R8). -/

namespace Sys2Proof

/-- A byte: a memory cell, a general register, a timer, an 8-bit immediate `kk` (R10, R61). -/
abbrev Byte := BitVec 8

/-- A 16-bit word: an instruction word, `PC`, `I`, a return address, the pressed-key set (R10, R60). -/
abbrev Word := BitVec 16

/-- A nibble: a sprite height `n`, a key number, or one of the four digits of an instruction word (R61). -/
abbrev Nibble := BitVec 4

/-- The number of a general register, the fields `x` and `y` (R11, R63): every value names a register. -/
abbrev RegNum := BitVec 4

/-- A 12-bit immediate `nnn` (R61, R63). -/
abbrev Imm12 := BitVec 12

end Sys2Proof
end

