-- ==== Sys2Proof/Syntax.lean ====
section
/-! DEFINITION. The instruction set: one constructor per row of spec/opcode_table.json (30_encoding.md R66, R71).
`nativeCall` is the row `0NNN`, which is decoded and has no Operation: its meaning is the error of R100 (log 12). -/

namespace Sys2Proof

/-- One constructor per row of the opcode map, with the fields of R61 that the row has. -/
inductive Instr where
  /-- `00E0` ClearScreen (R150). -/
  | clearScreen
  /-- `00EE` Return (R101). -/
  | ret
  /-- `0NNN` NativeCall, neither `00E0` nor `00EE` (R100). -/
  | nativeCall (nnn : Imm12)
  /-- `1NNN` Jump (R102). -/
  | jump (nnn : Imm12)
  /-- `2NNN` Call (R103). -/
  | call (nnn : Imm12)
  /-- `3XNN` SkipEqImm (R110). -/
  | skipEqImm (x : RegNum) (kk : Byte)
  /-- `4XNN` SkipNeqImm (R111). -/
  | skipNeqImm (x : RegNum) (kk : Byte)
  /-- `5XY0` SkipEqReg (R112). -/
  | skipEqReg (x y : RegNum)
  /-- `6XNN` LoadImm (R120). -/
  | loadImm (x : RegNum) (kk : Byte)
  /-- `7XNN` AddImm (R121). -/
  | addImm (x : RegNum) (kk : Byte)
  /-- `8XY0` Move (R123). -/
  | move (x y : RegNum)
  /-- `8XY1` Or (R124). -/
  | or (x y : RegNum)
  /-- `8XY2` And (R125). -/
  | and (x y : RegNum)
  /-- `8XY3` Xor (R126). -/
  | xor (x y : RegNum)
  /-- `8XY4` AddReg (R127). -/
  | addReg (x y : RegNum)
  /-- `8XY5` SubReg (R128). -/
  | subReg (x y : RegNum)
  /-- `8XY6` ShiftRight (R129). -/
  | shiftRight (x y : RegNum)
  /-- `8XY7` SubnReg (R130). -/
  | subnReg (x y : RegNum)
  /-- `8XYE` ShiftLeft (R131). -/
  | shiftLeft (x y : RegNum)
  /-- `9XY0` SkipNeqReg (R113). -/
  | skipNeqReg (x y : RegNum)
  /-- `ANNN` LoadIndex (R140). -/
  | loadIndex (nnn : Imm12)
  /-- `BNNN` JumpOffset (R104); `x` is a copy of `nnn[11:8]` (R64, R71). -/
  | jumpOffset (nnn : Imm12) (x : RegNum)
  /-- `CXNN` Random (R132). -/
  | random (x : RegNum) (kk : Byte)
  /-- `DXYN` Draw (R152). -/
  | draw (x y : RegNum) (n : Nibble)
  /-- `EX9E` SkipIfKeyDown (R163). -/
  | skipIfKeyDown (x : RegNum)
  /-- `EXA1` SkipIfKeyUp (R164). -/
  | skipIfKeyUp (x : RegNum)
  /-- `FX07` ReadDelay (R160). -/
  | readDelay (x : RegNum)
  /-- `FX0A` WaitKey (R165). -/
  | waitKey (x : RegNum)
  /-- `FX15` SetDelay (R161). -/
  | setDelay (x : RegNum)
  /-- `FX18` SetSound (R162). -/
  | setSound (x : RegNum)
  /-- `FX1E` AddIndex (R141). -/
  | addIndex (x : RegNum)
  /-- `FX29` LoadFontAddr (R142). -/
  | loadFontAddr (x : RegNum)
  /-- `FX33` StoreBCD (R143). -/
  | storeBCD (x : RegNum)
  /-- `FX55` StoreRegisters (R144). -/
  | storeRegisters (x : RegNum)
  /-- `FX65` LoadRegisters (R145). -/
  | loadRegisters (x : RegNum)
  deriving DecidableEq, Repr

end Sys2Proof
end

