-- ==== Sys2Proof/WellFormed.lean ====
section
/-! DEFINITION. Which terms of `Instr` stand for a word. Field widths are carried by the types (30_encoding.md R63: every
value of every field is legal); two rows relate fields or exclude words. -/

namespace Sys2Proof

/-- A term that some instruction word stands for. `0NNN` leaves `00E0` and `00EE` to their own rows (R66, R67); the `x` of
JumpOffset is bits 11:8 of the same word as `nnn` (R64, R71). -/
def Instr.wellFormed : Instr → Bool
  | .nativeCall nnn => nnn != 0x0E0#12 && nnn != 0x0EE#12
  | .jumpOffset nnn x => x == nnn.extractLsb 11 8
  | .clearScreen => true
  | .ret => true
  | .jump _ => true
  | .call _ => true
  | .skipEqImm _ _ => true
  | .skipNeqImm _ _ => true
  | .skipEqReg _ _ => true
  | .loadImm _ _ => true
  | .addImm _ _ => true
  | .move _ _ => true
  | .or _ _ => true
  | .and _ _ => true
  | .xor _ _ => true
  | .addReg _ _ => true
  | .subReg _ _ => true
  | .shiftRight _ _ => true
  | .subnReg _ _ => true
  | .shiftLeft _ _ => true
  | .skipNeqReg _ _ => true
  | .loadIndex _ => true
  | .random _ _ => true
  | .draw _ _ _ => true
  | .skipIfKeyDown _ => true
  | .skipIfKeyUp _ => true
  | .readDelay _ => true
  | .waitKey _ => true
  | .setDelay _ => true
  | .setSound _ => true
  | .addIndex _ => true
  | .loadFontAddr _ => true
  | .storeBCD _ => true
  | .storeRegisters _ => true
  | .loadRegisters _ => true

/-- `wellFormed` as a proposition. -/
abbrev Instr.WellFormed (i : Instr) : Prop := i.wellFormed = true

end Sys2Proof
end

