-- ==== Sys2Proof/Decode.lean ====
section
/-! DEFINITION. The decoder (30_encoding.md R61, R65), the encoder written from the opcode map of R66, and that map itself.
The decoder is total; a word outside the map is rejected by name (R68). -/

namespace Sys2Proof

/-- Why no instruction is read. -/
inductive DecodeError where
  /-- `UnknownInstruction(raw)`: the word matches no row (R68, R171). -/
  | unknownInstruction (raw : Word)
  /-- Fewer than the two bytes of an instruction are there (log 31); never met by the machine, whose fetch gives two bytes. -/
  | truncated
  deriving DecidableEq, Repr

/-- The family selector `n1 = raw[15:12]` (R61). -/
def fieldN1 (raw : Word) : Nibble := raw.extractLsb 15 12

/-- The field `x = raw[11:8]` (R61). -/
def fieldX (raw : Word) : RegNum := raw.extractLsb 11 8

/-- The field `y = raw[7:4]` (R61). -/
def fieldY (raw : Word) : RegNum := raw.extractLsb 7 4

/-- The field `n = raw[3:0]` (R61). -/
def fieldN (raw : Word) : Nibble := raw.extractLsb 3 0

/-- The field `kk = raw[7:0]` (R61). -/
def fieldKK (raw : Word) : Byte := raw.extractLsb 7 0

/-- The field `nnn = raw[11:0]` (R61). -/
def fieldNNN (raw : Word) : Imm12 := raw.extractLsb 11 0

/-- Family 8 of R65, selected by `n`. -/
def decodeFamily8 (raw : Word) : Except DecodeError Instr :=
  let x := fieldX raw
  let y := fieldY raw
  let n := fieldN raw
  if n = 0x0#4 then .ok (.move x y)
  else if n = 0x1#4 then .ok (.or x y)
  else if n = 0x2#4 then .ok (.and x y)
  else if n = 0x3#4 then .ok (.xor x y)
  else if n = 0x4#4 then .ok (.addReg x y)
  else if n = 0x5#4 then .ok (.subReg x y)
  else if n = 0x6#4 then .ok (.shiftRight x y)
  else if n = 0x7#4 then .ok (.subnReg x y)
  else if n = 0xE#4 then .ok (.shiftLeft x y)
  else .error (.unknownInstruction raw)

/-- Family E of R65, selected by `kk`. -/
def decodeFamilyE (raw : Word) : Except DecodeError Instr :=
  let x := fieldX raw
  let kk := fieldKK raw
  if kk = 0x9E#8 then .ok (.skipIfKeyDown x)
  else if kk = 0xA1#8 then .ok (.skipIfKeyUp x)
  else .error (.unknownInstruction raw)

/-- Family F of R65, selected by `kk`. -/
def decodeFamilyF (raw : Word) : Except DecodeError Instr :=
  let x := fieldX raw
  let kk := fieldKK raw
  if kk = 0x07#8 then .ok (.readDelay x)
  else if kk = 0x0A#8 then .ok (.waitKey x)
  else if kk = 0x15#8 then .ok (.setDelay x)
  else if kk = 0x18#8 then .ok (.setSound x)
  else if kk = 0x1E#8 then .ok (.addIndex x)
  else if kk = 0x29#8 then .ok (.loadFontAddr x)
  else if kk = 0x33#8 then .ok (.storeBCD x)
  else if kk = 0x55#8 then .ok (.storeRegisters x)
  else if kk = 0x65#8 then .ok (.loadRegisters x)
  else .error (.unknownInstruction raw)

/-- `Decode(raw)`, the algorithm of R65. The words of R67 give `nativeCall`, whose meaning is UnsupportedNativeCall (log 12). -/
def decode (raw : Word) : Except DecodeError Instr :=
  let n1 := fieldN1 raw
  let x := fieldX raw
  let y := fieldY raw
  let n := fieldN raw
  let kk := fieldKK raw
  let nnn := fieldNNN raw
  if n1 = 0x0#4 then
    if raw = 0x00E0#16 then .ok .clearScreen
    else if raw = 0x00EE#16 then .ok .ret
    else .ok (.nativeCall nnn)
  else if n1 = 0x1#4 then .ok (.jump nnn)
  else if n1 = 0x2#4 then .ok (.call nnn)
  else if n1 = 0x3#4 then .ok (.skipEqImm x kk)
  else if n1 = 0x4#4 then .ok (.skipNeqImm x kk)
  else if n1 = 0x5#4 then
    if n = 0x0#4 then .ok (.skipEqReg x y) else .error (.unknownInstruction raw)
  else if n1 = 0x6#4 then .ok (.loadImm x kk)
  else if n1 = 0x7#4 then .ok (.addImm x kk)
  else if n1 = 0x8#4 then decodeFamily8 raw
  else if n1 = 0x9#4 then
    if n = 0x0#4 then .ok (.skipNeqReg x y) else .error (.unknownInstruction raw)
  else if n1 = 0xA#4 then .ok (.loadIndex nnn)
  else if n1 = 0xB#4 then .ok (.jumpOffset nnn x)
  else if n1 = 0xC#4 then .ok (.random x kk)
  else if n1 = 0xD#4 then .ok (.draw x y n)
  else if n1 = 0xE#4 then decodeFamilyE raw
  else decodeFamilyF raw

/-- The instruction word of two consecutive bytes, the first one high: `(hi << 8) | lo` (R45, R47). -/
def wordOfBytes (hi lo : Byte) : Word := hi ++ lo

/-- The byte of an instruction word at the lower address, bits 15 to 8 (R47). -/
def highByte (raw : Word) : Byte := raw.extractLsb 15 8

/-- The byte of an instruction word at the higher address, bits 7 to 0 (R47). -/
def lowByte (raw : Word) : Byte := raw.extractLsb 7 0

/-- Decode from any bytes: the instruction and the bytes after it. Every instruction is two bytes, first byte high (R60). -/
def decodeBytes : List Byte → Except DecodeError (Instr × List Byte)
  | hi :: lo :: rest =>
    match decode (wordOfBytes hi lo) with
    | .ok i => .ok (i, rest)
    | .error e => .error e
  | [_] => .error .truncated
  | [] => .error .truncated

/-- A word of format NNN (R62). -/
def packNNN (n1 : Nibble) (nnn : Imm12) : Word := n1 ++ nnn

/-- A word of format XKK, or of format X with a literal low byte (R62). -/
def packXKK (n1 : Nibble) (x : RegNum) (kk : Byte) : Word := n1 ++ x ++ kk

/-- A word of format XYN, or of format XY with a literal low nibble (R62). -/
def packXYN (n1 : Nibble) (x y : RegNum) (n : Nibble) : Word := n1 ++ x ++ y ++ n

/-- The word of an instruction, from the patterns of the opcode map (R66). -/
def encode : Instr → Word
  | .clearScreen => 0x00E0#16
  | .ret => 0x00EE#16
  | .nativeCall nnn => packNNN 0x0#4 nnn
  | .jump nnn => packNNN 0x1#4 nnn
  | .call nnn => packNNN 0x2#4 nnn
  | .skipEqImm x kk => packXKK 0x3#4 x kk
  | .skipNeqImm x kk => packXKK 0x4#4 x kk
  | .skipEqReg x y => packXYN 0x5#4 x y 0x0#4
  | .loadImm x kk => packXKK 0x6#4 x kk
  | .addImm x kk => packXKK 0x7#4 x kk
  | .move x y => packXYN 0x8#4 x y 0x0#4
  | .or x y => packXYN 0x8#4 x y 0x1#4
  | .and x y => packXYN 0x8#4 x y 0x2#4
  | .xor x y => packXYN 0x8#4 x y 0x3#4
  | .addReg x y => packXYN 0x8#4 x y 0x4#4
  | .subReg x y => packXYN 0x8#4 x y 0x5#4
  | .shiftRight x y => packXYN 0x8#4 x y 0x6#4
  | .subnReg x y => packXYN 0x8#4 x y 0x7#4
  | .shiftLeft x y => packXYN 0x8#4 x y 0xE#4
  | .skipNeqReg x y => packXYN 0x9#4 x y 0x0#4
  | .loadIndex nnn => packNNN 0xA#4 nnn
  | .jumpOffset nnn _ => packNNN 0xB#4 nnn
  | .random x kk => packXKK 0xC#4 x kk
  | .draw x y n => packXYN 0xD#4 x y n
  | .skipIfKeyDown x => packXKK 0xE#4 x 0x9E#8
  | .skipIfKeyUp x => packXKK 0xE#4 x 0xA1#8
  | .readDelay x => packXKK 0xF#4 x 0x07#8
  | .waitKey x => packXKK 0xF#4 x 0x0A#8
  | .setDelay x => packXKK 0xF#4 x 0x15#8
  | .setSound x => packXKK 0xF#4 x 0x18#8
  | .addIndex x => packXKK 0xF#4 x 0x1E#8
  | .loadFontAddr x => packXKK 0xF#4 x 0x29#8
  | .storeBCD x => packXKK 0xF#4 x 0x33#8
  | .storeRegisters x => packXKK 0xF#4 x 0x55#8
  | .loadRegisters x => packXKK 0xF#4 x 0x65#8

/-- The two bytes of an instruction as memory holds them, high byte first (R47). -/
def encodeBytes (i : Instr) : List Byte := [highByte (encode i), lowByte (encode i)]

/-- An instruction word cut to the table's `nbits` bits, every bit above them 0. -/
def tableWord (nbits w : Nat) : Word := BitVec.ofNat 16 (w % 2 ^ nbits)

/-- The instruction the decoder reads from the word `w` of the opcode table, laid out in memory order (R47). -/
def decodeTableWord (nbits w : Nat) : Option Instr :=
  match decodeBytes [highByte (tableWord nbits w), lowByte (tableWord nbits w)] with
  | .ok (i, _) => some i
  | .error _ => none

/-- One row of the opcode map of R66: a word selects the row when `raw AND mask = bits` and it is none of `except`. -/
structure OpcodeRow where
  mnemonic : String
  bits : Word
  mask : Word
  except : List Word
  deriving DecidableEq, Repr

/-- Whether a word selects a row of the opcode map (R66). -/
abbrev OpcodeRow.Selects (row : OpcodeRow) (raw : Word) : Prop := raw &&& row.mask = row.bits ∧ raw ∉ row.except

/-- The opcode map of R66, its 35 rows in the table's order, as match and mask. -/
def opcodeMap : List OpcodeRow :=
  [ ⟨"ClearScreen", 0x00E0#16, 0xFFFF#16, []⟩, ⟨"Return", 0x00EE#16, 0xFFFF#16, []⟩,
    ⟨"NativeCall", 0x0000#16, 0xF000#16, [0x00E0#16, 0x00EE#16]⟩, ⟨"Jump", 0x1000#16, 0xF000#16, []⟩, ⟨"Call", 0x2000#16, 0xF000#16, []⟩,
    ⟨"SkipEqImm", 0x3000#16, 0xF000#16, []⟩, ⟨"SkipNeqImm", 0x4000#16, 0xF000#16, []⟩, ⟨"SkipEqReg", 0x5000#16, 0xF00F#16, []⟩,
    ⟨"LoadImm", 0x6000#16, 0xF000#16, []⟩, ⟨"AddImm", 0x7000#16, 0xF000#16, []⟩ ] ++
  [ ⟨"Move", 0x8000#16, 0xF00F#16, []⟩, ⟨"Or", 0x8001#16, 0xF00F#16, []⟩, ⟨"And", 0x8002#16, 0xF00F#16, []⟩,
    ⟨"Xor", 0x8003#16, 0xF00F#16, []⟩, ⟨"AddReg", 0x8004#16, 0xF00F#16, []⟩, ⟨"SubReg", 0x8005#16, 0xF00F#16, []⟩,
    ⟨"ShiftRight", 0x8006#16, 0xF00F#16, []⟩, ⟨"SubnReg", 0x8007#16, 0xF00F#16, []⟩, ⟨"ShiftLeft", 0x800E#16, 0xF00F#16, []⟩,
    ⟨"SkipNeqReg", 0x9000#16, 0xF00F#16, []⟩ ] ++
  [ ⟨"LoadIndex", 0xA000#16, 0xF000#16, []⟩, ⟨"JumpOffset", 0xB000#16, 0xF000#16, []⟩, ⟨"Random", 0xC000#16, 0xF000#16, []⟩,
    ⟨"Draw", 0xD000#16, 0xF000#16, []⟩, ⟨"SkipIfKeyDown", 0xE09E#16, 0xF0FF#16, []⟩, ⟨"SkipIfKeyUp", 0xE0A1#16, 0xF0FF#16, []⟩ ] ++
  [ ⟨"ReadDelay", 0xF007#16, 0xF0FF#16, []⟩, ⟨"WaitKey", 0xF00A#16, 0xF0FF#16, []⟩, ⟨"SetDelay", 0xF015#16, 0xF0FF#16, []⟩,
    ⟨"SetSound", 0xF018#16, 0xF0FF#16, []⟩, ⟨"AddIndex", 0xF01E#16, 0xF0FF#16, []⟩, ⟨"LoadFontAddr", 0xF029#16, 0xF0FF#16, []⟩,
    ⟨"StoreBCD", 0xF033#16, 0xF0FF#16, []⟩, ⟨"StoreRegisters", 0xF055#16, 0xF0FF#16, []⟩, ⟨"LoadRegisters", 0xF065#16, 0xF0FF#16, []⟩ ]

/-- The mnemonic of an instruction, as the opcode map spells it (R66). -/
def Instr.mnemonic : Instr → String
  | .clearScreen => "ClearScreen"
  | .ret => "Return"
  | .nativeCall _ => "NativeCall"
  | .jump _ => "Jump"
  | .call _ => "Call"
  | .skipEqImm _ _ => "SkipEqImm"
  | .skipNeqImm _ _ => "SkipNeqImm"
  | .skipEqReg _ _ => "SkipEqReg"
  | .loadImm _ _ => "LoadImm"
  | .addImm _ _ => "AddImm"
  | .move _ _ => "Move"
  | .or _ _ => "Or"
  | .and _ _ => "And"
  | .xor _ _ => "Xor"
  | .addReg _ _ => "AddReg"
  | .subReg _ _ => "SubReg"
  | .shiftRight _ _ => "ShiftRight"
  | .subnReg _ _ => "SubnReg"
  | .shiftLeft _ _ => "ShiftLeft"
  | .skipNeqReg _ _ => "SkipNeqReg"
  | .loadIndex _ => "LoadIndex"
  | .jumpOffset _ _ => "JumpOffset"
  | .random _ _ => "Random"
  | .draw _ _ _ => "Draw"
  | .skipIfKeyDown _ => "SkipIfKeyDown"
  | .skipIfKeyUp _ => "SkipIfKeyUp"
  | .readDelay _ => "ReadDelay"
  | .waitKey _ => "WaitKey"
  | .setDelay _ => "SetDelay"
  | .setSound _ => "SetSound"
  | .addIndex _ => "AddIndex"
  | .loadFontAddr _ => "LoadFontAddr"
  | .storeBCD _ => "StoreBCD"
  | .storeRegisters _ => "StoreRegisters"
  | .loadRegisters _ => "LoadRegisters"

end Sys2Proof
end

