-- ==== Sys2Proof/Config.lean ====
section
/-! DEFINITION. The fixed parameters of the core (00_scope.md R6), the default font (10_state.md R31) and the one free
value of the model, the bytes of the randomness source (R7, R88). -/

namespace Sys2Proof.Config

/-- `MEM_SIZE`: bytes of memory; the valid addresses are 0 to 4095 (R6). -/
abbrev memSize : Nat := 4096

/-- `FONT_BASE`: the address of glyph 0 (R6). -/
abbrev fontBase : Nat := 0x050

/-- `GLYPH_BYTES`: bytes per glyph (R6). -/
abbrev glyphBytes : Nat := 5

/-- `FONT_SIZE`: bytes of font (R6). -/
abbrev fontSize : Nat := 80

/-- `PROG_BASE`: the address of program byte 0 and the reset value of `PC` (R6, R202). -/
abbrev progBase : Nat := 0x200

/-- `PROG_MAX`: the most program bytes that reset accepts (R6, R175). -/
abbrev progMax : Nat := 3584

/-- `NREGS`: the general registers (R6). -/
abbrev numRegs : Nat := 16

/-- `STACK_DEPTH`: the most return addresses held (R6). -/
abbrev stackDepth : Nat := 16

/-- `DISP_W`: display columns (R6). -/
abbrev dispWidth : Nat := 64

/-- `DISP_H`: display rows (R6). -/
abbrev dispHeight : Nat := 32

/-- A font table: exactly 80 bytes by its type (R7, R57; log 31). -/
abbrev Font := Vector Byte fontSize

/-- The default font of R31: sixteen glyphs of five rows, digit order. PRESUMED (G1, general knowledge), unsafe; log 4. -/
def defaultFont : Font :=
  #v[ 0xF0, 0x90, 0x90, 0x90, 0xF0,   0x20, 0x60, 0x20, 0x20, 0x70,
      0xF0, 0x10, 0xF0, 0x80, 0xF0,   0xF0, 0x10, 0xF0, 0x10, 0xF0,
      0x90, 0x90, 0xF0, 0x10, 0x10,   0xF0, 0x80, 0xF0, 0x10, 0xF0,
      0xF0, 0x80, 0xF0, 0x90, 0xF0,   0xF0, 0x10, 0x20, 0x40, 0x40,
      0xF0, 0x90, 0xF0, 0x90, 0xF0,   0xF0, 0x90, 0xF0, 0x10, 0xF0,
      0xF0, 0x90, 0xF0, 0x90, 0x90,   0xE0, 0x90, 0xE0, 0x90, 0xE0,
      0xF0, 0x80, 0x80, 0x80, 0xF0,   0xE0, 0x90, 0x90, 0x90, 0xE0,
      0xF0, 0x80, 0xF0, 0x80, 0xF0,   0xF0, 0x80, 0xF0, 0x80, 0x80 ]

/-- The `k`-th byte that the randomness source gives (R7 `RAND`, R88, R132). A FREE VALUE: it has no body, so no proof can
know a byte of it, and a claim about Random holds for every stream. DESIGN CHOICE of form, safe; log 1. -/
opaque randByte : Nat → Byte

end Sys2Proof.Config
end

