-- ==== Sys2Proof/Machine/State.lean ====
section
/-! DEFINITION. The whole state of the core (10_state.md R10), the errors (60_exceptions.md R170) and the state after reset
(10_state.md R32). State is plain data. -/

namespace Sys2Proof.Machine

/-- A pixel, Black (off, unlit) or White (on, lit) (R23). -/
inductive Pixel where
  | black
  | white
  deriving DecidableEq, Repr

/-- The display matrix: 32 rows of 64 pixels, row-major (R22). -/
abbrev Display := Vector (Vector Pixel Config.dispWidth) Config.dispHeight

/-- Memory as the list of its (address, byte) pairs that differ from what an unlisted address reads as
(`Memory.initialByte`, log 5), addresses strictly rising. -/
abbrev Memory := List Host.Cell

/-- The state record of R10, every field of it and nothing else. RAND and the other inputs and outputs of R30 are not in it. -/
structure Record where
  /-- `MEM` (R29, R40). -/
  mem : Memory
  /-- `V[0]` to `V[15]`; `V[15]` is also `VF`, the flag (R11, R13). -/
  v : Vector Byte Config.numRegs
  /-- `I`, the index register, all sixteen bits kept (R15). -/
  i : Word
  /-- `PC`, the program counter (R14; log 7). -/
  pc : Word
  /-- `STACK[0]` (oldest) to `STACK[15]`; live below `sp` (R19; log 28). -/
  stack : Vector Word Config.stackDepth
  /-- `SP`, the depth of the call stack, 0 to 16 (R19). -/
  sp : Fin (Config.stackDepth + 1)
  /-- `DISP` (R22). -/
  disp : Display
  /-- `DT`, the delay timer (R24). -/
  dt : Byte
  /-- `ST`, the sound timer (R25). -/
  st : Byte
  /-- `KEYS`, bit `k` set when key `k` is pressed (R26). -/
  keys : Word
  /-- `WAIT`: `none` is running, `some x` is suspended awaiting a key for `V[x]` (R27). -/
  wait : Option RegNum
  /-- `Q_SHIFT` (R28). -/
  qShift : Bool
  /-- `Q_JUMP` (R28). -/
  qJump : Bool
  deriving DecidableEq, Repr

/-- What a step goes from and to: the state record of R10, and beside it the place in the randomness input that the next draw
reads. The input itself is `Config.randByte`, outside every state (R30, R88); a step is a function of its state alone, so the
place has to come to it from there (log 1). -/
structure State extends Record where
  /-- The model's own field, no part of the spec's record: how many bytes of RAND have been drawn (log 1, log 2). -/
  randPos : Nat
  deriving DecidableEq, Repr

/-- The error kinds, a closed list (R170). Each is the spec's own fatal error, reported to the host with the state as it was
before the event (R176, log 11), so stopping here is what the hardware does: safe. -/
inductive Fault where
  /-- Raised by a cycle in the decode phase, for a word that matches no pattern; carries the word (R171). Safe. -/
  | unknownInstruction (raw : Word)
  /-- Raised by a cycle for a word `0NNN` other than `00E0` and `00EE` (R172). Safe. -/
  | unsupportedNativeCall
  /-- Raised by Call with sixteen addresses on the stack (R173). Safe. -/
  | stackOverflow
  /-- Raised by Return with an empty stack (R174). Safe. -/
  | stackUnderflow
  /-- Raised by the fetch, Draw, StoreBCD, StoreRegisters, LoadRegisters for an address above 4095 (R178). Safe. -/
  | memoryOutOfBounds
  /-- Raised by the event `reset` only, for a program of more than 3584 bytes (R175). Safe. -/
  | programTooLarge
  deriving DecidableEq, Repr

/-- Why the model has no meaning for an instruction. No arm of `exec` answers with it in this model. -/
inductive Refusal where
  /-- Raised by an arm of `exec` whose instruction has no meaning yet. Safe: nothing is claimed of it. -/
  | notModelled (mnemonic : String)
  deriving DecidableEq, Repr

/-- What a cycle or a meaning answers. -/
abbrev Result := Host.Outcome State Fault Refusal

/-- A display with every pixel Black (R32, R150). -/
def Display.allBlack : Display := Vector.replicate _ (Vector.replicate _ .black)

/-- The state after `reset` (R32, R200) with an empty program, the default font (log 4) and both quirk flags false (log 3).
The reset event for every argument is `resetEvent`. -/
def State.reset : State where
  mem := []
  v := Vector.replicate _ 0x00#8
  i := 0x0000#16
  pc := 0x0200#16
  stack := Vector.replicate _ 0x0000#16
  sp := 0
  disp := Display.allBlack
  dt := 0x00#8
  st := 0x00#8
  keys := 0x0000#16
  wait := none
  qShift := false
  qJump := false
  randPos := 0

end Sys2Proof.Machine
end

