-- ==== Sys2Proof/Machine/Flags.lean ====
section
/-! DEFINITION. Every flag computation: the value `VF` gets is always 0x00 or 0x01 (10_state.md R13, 43_alu.md R133). -/

namespace Sys2Proof.Machine

/-- A flag as the byte written to `VF` (R13). -/
def flagByte (c : Bool) : Byte := if c then 0x01#8 else 0x00#8

/-- The carry of `a + b`: the unsigned sum exceeds 255 (R127, R133). -/
def addCarry (a b : Byte) : Bool := decide (a.toNat + b.toNat > 255)

/-- NOT borrow of `a - b`: there is a borrow exactly when `a < b` (R128, R130, R133; log 27). -/
def notBorrow (a b : Byte) : Bool := decide (a.toNat ≥ b.toNat)

/-- The bit that a right shift by one puts out, bit 0 (R129). -/
def shiftedOutRight (a : Byte) : Bool := a.getLsbD 0

/-- The bit that a left shift by one puts out, bit 7 (R131). -/
def shiftedOutLeft (a : Byte) : Bool := a.getLsbD 7

/-- Whether flipping a pixel is a collision: the pixel was lit and goes unlit (R152, R153). -/
def collides (old : Pixel) : Bool := decide (old = .white)

end Sys2Proof.Machine
end

