-- ==== Sys2Proof/Machine/Ops.lean ====
section
/-! DEFINITION. The named operations over memory, registers, stack, program counter and display, instruction fetch, and
raising an error (20_memory.md R42 to R47; 10_state.md R11, R16, R20, R21, R22; 60_exceptions.md R176). -/

namespace Sys2Proof.Machine

/-! ### Raising an error -/

/-- `raise <Kind>`: the error ends the cycle, is the cycle's result, and discards every write the cycle made, so the state
stays the one before the cycle (R8, R176; log 11). There is no vector, no saved register and no mode change. Beside it stands
no return from an error: the program never sees one (R177). -/
def raise (k : Fault) : Result := .fault k

/-! ### Memory -/

/-- What an address that memory does not list reads as: the reset contents with the default font and no program
(R32, R50; log 4, log 5). -/
def Memory.initialByte (a : Nat) : Byte :=
  if h : Config.fontBase ≤ a ∧ a - Config.fontBase < Config.fontSize then
    Config.defaultFont[a - Config.fontBase]'h.2
  else 0x00#8

/-- The byte of a cell, with no bounds check. -/
def Memory.byteAt : Memory → Nat → Byte
  | [], a => initialByte a
  | (a', b) :: m, a => if a = a' then b else byteAt m a

/-- Set the byte of a cell, with no bounds check, keeping the canonical form. -/
def Memory.put : Memory → Nat → Byte → Memory
  | [], a, b => if b = initialByte a then [] else [(a, b)]
  | (a', b') :: m, a, b =>
    if a < a' then
      if b = initialByte a then (a', b') :: m else (a, b) :: (a', b') :: m
    else if a = a' then
      if b = initialByte a then m else (a, b) :: m
    else (a', b') :: put m a b

/-- Set consecutive cells from an address upward, with no bounds check (the load at reset, R56, R200). -/
def Memory.putAll : Memory → Nat → List Byte → Memory
  | m, _, [] => m
  | m, a, b :: bs => putAll (put m a b) (a + 1) bs

/-- The canonical form: addresses strictly rising and inside memory, no entry equal to what an unlisted address reads as. -/
abbrev Memory.wf (m : Memory) : Prop :=
  m.Pairwise (fun c d => c.1 < d.1) ∧ ∀ c ∈ m, c.1 < Config.memSize ∧ c.2 ≠ initialByte c.1

/-- `MemRead(addr, 1)`; `none` is MemoryOutOfBounds (R42). -/
def Memory.read (m : Memory) (a : Nat) : Option Byte :=
  if a < Config.memSize then some (m.byteAt a) else none

/-- `MemWrite(addr, 1, v)`; `none` is MemoryOutOfBounds (R43). -/
def Memory.write (m : Memory) (a : Nat) (b : Byte) : Option Memory :=
  if a < Config.memSize then some (m.put a b) else none

/-- `n` byte reads from an address upward, all or nothing (R46). -/
def Memory.readBlock (m : Memory) (a : Nat) : Nat → Option (List Byte)
  | 0 => some []
  | n + 1 =>
    match m.read a with
    | none => none
    | some b =>
      match readBlock m (a + 1) n with
      | none => none
      | some bs => some (b :: bs)

/-- Byte writes from an address upward, all or nothing (R46). -/
def Memory.writeBlock (m : Memory) (a : Nat) : List Byte → Option Memory
  | [] => some m
  | b :: bs =>
    match m.write a b with
    | none => none
    | some m' => writeBlock m' (a + 1) bs

/-! ### Registers and the other fields -/

/-- `V[r]` (R8, R11). -/
def State.reg (s : State) (r : RegNum) : Byte := s.v[r.toNat]'r.isLt

/-- `V[r] <- b` (R8, R11). -/
def State.setReg (s : State) (r : RegNum) (b : Byte) : State := { s with v := s.v.set r.toNat b r.isLt }

/-- `V[0xF] <- b`, the flag (R13). -/
def State.setFlag (s : State) (b : Byte) : State := s.setReg 0xF#4 b

/-- `V[k], V[k+1], ... <- ` the bytes of a list, ascending (R145). -/
def State.setRegs (s : State) (k : Nat) : List Byte → State
  | [] => s
  | b :: bs => (s.setReg (BitVec.ofNat 4 k) b).setRegs (k + 1) bs

/-- `I <- w` (R15). -/
def State.setI (s : State) (w : Word) : State := { s with i := w }

/-- `DT <- b` (R24). -/
def State.setDT (s : State) (b : Byte) : State := { s with dt := b }

/-- `ST <- b` (R25). -/
def State.setST (s : State) (b : Byte) : State := { s with st := b }

/-- `WAIT <- w` (R27). -/
def State.setWait (s : State) (w : Option RegNum) : State := { s with wait := w }

/-- `KEYS <- k` (R26). -/
def State.setPressed (s : State) (k : Word) : State := { s with keys := k }

/-- Replace memory. -/
def State.setMem (s : State) (m : Memory) : State := { s with mem := m }

/-- Replace the display. -/
def State.setDisp (s : State) (d : Display) : State := { s with disp := d }

/-- `draw_byte()`: the next byte of RAND, and the state with one more byte drawn (R8, R88; log 1). -/
def State.drawByte (s : State) : Byte × State := (Config.randByte s.randPos, { s with randPos := s.randPos + 1 })

/-! ### Program counter (R16) -/

/-- `PC <- target`. -/
def State.jumpTo (s : State) (target : Word) : State := { s with pc := target }

/-- `PC <- PC + 2`. -/
def State.advance (s : State) : State := s.jumpTo (s.pc + 2#16)

/-- `if c then PC <- PC + 4 else PC <- PC + 2`. -/
def State.skipIf (s : State) (c : Bool) : State := if c then s.jumpTo (s.pc + 4#16) else s.advance

/-! ### Call stack (R20, R21) -/

/-- `Push(w)`; `none` is StackOverflow (R20). -/
def State.push (s : State) (w : Word) : Option State :=
  if h : s.sp.val < Config.stackDepth then
    some { s with stack := s.stack.set s.sp.val w h, sp := ⟨s.sp.val + 1, Nat.succ_lt_succ h⟩ }
  else none

/-- `Pop()`: the entry released and the state with it released; `none` is StackUnderflow (R21). -/
def State.pop (s : State) : Option (Word × State) :=
  if h : 0 < s.sp.val then
    have below : s.sp.val - 1 < Config.stackDepth := by have := s.sp.isLt; omega
    some (s.stack[s.sp.val - 1]'below, { s with sp := ⟨s.sp.val - 1, Nat.lt_succ_of_lt below⟩ })
  else none

/-! ### Display (R22) -/

/-- `DISP[row][col]`. -/
def Display.pixel (d : Display) (row : Fin Config.dispHeight) (col : Fin Config.dispWidth) : Pixel := d[row][col]

/-- `DISP[row][col] <- p`. -/
def Display.setPixel (d : Display) (row : Fin Config.dispHeight) (col : Fin Config.dispWidth) (p : Pixel) : Display :=
  d.set row (d[row].set col p)

/-- `p XOR 1` (R23, R152). -/
def Pixel.flip : Pixel → Pixel
  | .black => .white
  | .white => .black

/-! ### Fetch -/

/-- `MemRead(PC, 2)`: the byte at `PC` is the high byte; `none` is MemoryOutOfBounds (R45, R47). `PC` may be odd (R48). -/
def fetch (s : State) : Option Word :=
  match s.mem.read s.pc.toNat with
  | none => none
  | some hi =>
    match s.mem.read (s.pc.toNat + 1) with
    | none => none
    | some lo => some (wordOfBytes hi lo)

end Sys2Proof.Machine
end

