-- ==== Sys2Proof/Machine/Operands.lean ====
section
/-! DEFINITION. Every operand form of the instruction set: registers are `State.reg`, immediates are used as they stand
(30_encoding.md R63); the rest are the selected registers, the addresses, the key test, the digits and the register block. -/

namespace Sys2Proof.Machine

/-- The effective address of the `k`-th byte of an access, on unbounded integers from the whole of `I` (R44, R146; log 19). -/
def effAddr (s : State) (k : Nat) : Nat := s.i.toNat + k

/-- The value that a shift shifts: `V[y]` when `Q_SHIFT`, else `V[x]` (R129, R131). -/
def shiftSource (x y : RegNum) (s : State) : Byte := if s.qShift then s.reg y else s.reg x

/-- The register that JumpOffset adds: `V[x]` when `Q_JUMP`, else `V[0]` (R104). -/
def jumpOffsetReg (x : RegNum) (s : State) : Byte := if s.qJump then s.reg x else s.reg 0x0#4

/-- `b in KEYS`: a value of 16 or more is in no set (R163, R164; log 20). -/
def keyDown (s : State) (b : Byte) : Bool := decide (b.toNat < 16) && s.keys.getLsbD b.toNat

/-- The address of the glyph of the digit in the low nibble of a register (R142; log 18). -/
def glyphAddr (b : Byte) : Word := 0x0050#16 + 5#16 * (b.extractLsb 3 0).zeroExtend 16

/-- The three decimal digits of a byte, hundreds first (R143; log 26). -/
def bcdDigits (b : Byte) : List Byte :=
  [BitVec.ofNat 8 (b.toNat / 100), BitVec.ofNat 8 (b.toNat / 10 % 10), BitVec.ofNat 8 (b.toNat % 10)]

/-- How many registers StoreRegisters and LoadRegisters move: `x + 1` (R144, R145). -/
def blockLength (x : RegNum) : Nat := x.toNat + 1

/-- `V[0]` to `V[x]`, ascending (R144). -/
def regBlock (x : RegNum) (s : State) : List Byte := s.v.toList.take (blockLength x)

end Sys2Proof.Machine
end

