-- ==== Sys2Proof/Machine/Alu.lean ====
section
/-! DEFINITION. Register load, arithmetic, logic, shift and random instructions (43_alu.md). Operands are read from the state
before the instruction, the result is written to `V[x]`, then the flag to `V[0xF]` (R122; log 16). -/

namespace Sys2Proof.Machine

/-- Write a result to `V[x]` and advance; no flag. -/
def writeResult (x : RegNum) (r : Byte) (s : State) : Result := .next (s.setReg x r).advance

/-- Write a result to `V[x]`, then the flag to `V[0xF]`, and advance (R122; log 16). -/
def writeResultFlag (x : RegNum) (r : Byte) (c : Bool) (s : State) : Result :=
  .next ((s.setReg x r).setFlag (flagByte c)).advance

/-- LoadImm `6XNN` (R120). -/
def execLoadImm (x : RegNum) (kk : Byte) (s : State) : Result := writeResult x kk s

/-- AddImm `7XNN`: wraps, no flag (R121). -/
def execAddImm (x : RegNum) (kk : Byte) (s : State) : Result := writeResult x (s.reg x + kk) s

/-- Move `8XY0` (R123). -/
def execMove (x y : RegNum) (s : State) : Result := writeResult x (s.reg y) s

/-- Or `8XY1`: `VF` is left as it is (R124; log 23). -/
def execOr (x y : RegNum) (s : State) : Result := writeResult x (s.reg x ||| s.reg y) s

/-- And `8XY2`: `VF` is left as it is (R125; log 23). -/
def execAnd (x y : RegNum) (s : State) : Result := writeResult x (s.reg x &&& s.reg y) s

/-- Xor `8XY3`: `VF` is left as it is (R126; log 23). -/
def execXor (x y : RegNum) (s : State) : Result := writeResult x (s.reg x ^^^ s.reg y) s

/-- AddReg `8XY4` (R127). -/
def execAddReg (x y : RegNum) (s : State) : Result :=
  writeResultFlag x (s.reg x + s.reg y) (addCarry (s.reg x) (s.reg y)) s

/-- SubReg `8XY5`: `Vx - Vy` (R128). -/
def execSubReg (x y : RegNum) (s : State) : Result :=
  writeResultFlag x (s.reg x - s.reg y) (notBorrow (s.reg x) (s.reg y)) s

/-- ShiftRight `8XY6` of `V[x]`, or of `V[y]` when `Q_SHIFT` (R129). -/
def execShiftRight (x y : RegNum) (s : State) : Result :=
  writeResultFlag x (shiftSource x y s >>> 1) (shiftedOutRight (shiftSource x y s)) s

/-- SubnReg `8XY7`: `Vy - Vx` (R130). -/
def execSubnReg (x y : RegNum) (s : State) : Result :=
  writeResultFlag x (s.reg y - s.reg x) (notBorrow (s.reg y) (s.reg x)) s

/-- ShiftLeft `8XYE` of `V[x]`, or of `V[y]` when `Q_SHIFT` (R131). -/
def execShiftLeft (x y : RegNum) (s : State) : Result :=
  writeResultFlag x (shiftSource x y s <<< 1) (shiftedOutLeft (shiftSource x y s)) s

/-- Random `CXNN`: one byte is drawn, also when `kk = 0` (R132; log 1, log 2). -/
def execRandom (x : RegNum) (kk : Byte) (s : State) : Result := writeResult x (s.drawByte.1 &&& kk) s.drawByte.2

end Sys2Proof.Machine
end

