-- ==== Sys2Proof/Machine/ControlFlow.lean ====
section
/-! DEFINITION. Control transfer: NativeCall, Return, Jump, Call, JumpOffset (41_control_flow.md). -/

namespace Sys2Proof.Machine

/-- NativeCall `0NNN`: always the error UnsupportedNativeCall; nothing is executed (R100; log 12). -/
def execNativeCall (_nnn : Imm12) (_s : State) : Result := raise .unsupportedNativeCall

/-- Return `00EE`: the popped value is the new `PC` as it is, or StackUnderflow (R101). -/
def execReturn (s : State) : Result :=
  match s.pop with
  | none => raise .stackUnderflow
  | some (t, s') => .next (s'.jumpTo t)

/-- Jump `1NNN` (R102). -/
def execJump (nnn : Imm12) (s : State) : Result := .next (s.jumpTo (nnn.zeroExtend 16))

/-- Call `2NNN`: push `PC + 2`, or StackOverflow (R103). -/
def execCall (nnn : Imm12) (s : State) : Result :=
  match s.push (s.pc + 2#16) with
  | none => raise .stackOverflow
  | some s' => .next (s'.jumpTo (nnn.zeroExtend 16))

/-- JumpOffset `BNNN`: the 16-bit sum, neither reduced nor checked (R104; log 24). -/
def execJumpOffset (nnn : Imm12) (x : RegNum) (s : State) : Result :=
  .next (s.jumpTo (nnn.zeroExtend 16 + (jumpOffsetReg x s).zeroExtend 16))

end Sys2Proof.Machine
end

