-- ==== Sys2Proof/Machine/Graphics.lean ====
section
/-! DEFINITION. The display instructions: ClearScreen and Draw (45_display.md). -/

namespace Sys2Proof.Machine

/-- The display row of sprite row `r` placed at `y0`, wrapped (R151). -/
def wrapRow (y0 : Byte) (r : Nat) : Fin Config.dispHeight := ⟨(y0.toNat + r) % 32, Nat.mod_lt _ (by decide)⟩

/-- The display column of sprite column `c` placed at `x0`, wrapped (R151). -/
def wrapCol (x0 : Byte) (c : Nat) : Fin Config.dispWidth := ⟨(x0.toNat + c) % 64, Nat.mod_lt _ (by decide)⟩

/-- The sprite pixel at column offset `c` of a row byte: bit `7 - c` (R151; log 25). -/
def spriteBit (b : Byte) (c : Nat) : Bool := b.getLsbD (7 - c)

/-- One sprite pixel: where the sprite bit is 1 the display pixel flips, and a lit one is a hit (R152). The pair is the display
and `hit`. -/
def blitBit (x0 y0 : Byte) (r : Nat) (b : Byte) (acc : Display × Bool) (c : Nat) : Display × Bool :=
  if spriteBit b c then
    let old := acc.1.pixel (wrapRow y0 r) (wrapCol x0 c)
    (acc.1.setPixel (wrapRow y0 r) (wrapCol x0 c) old.flip, acc.2 || collides old)
  else acc

/-- The column offsets of a sprite row (R151). -/
abbrev spriteCols : List Nat := [0, 1, 2, 3, 4, 5, 6, 7]

/-- One sprite row, columns 0 to 7 (R152). -/
def blitRow (x0 y0 : Byte) (r : Nat) (b : Byte) (acc : Display × Bool) : Display × Bool :=
  spriteCols.foldl (blitBit x0 y0 r b) acc

/-- The sprite rows from row `r` on (R152). -/
def blitRows (x0 y0 : Byte) (r : Nat) : List Byte → Display × Bool → Display × Bool
  | [], acc => acc
  | b :: bs, acc => blitRows x0 y0 (r + 1) bs (blitRow x0 y0 r b acc)

/-- XOR a sprite onto a display: the new display and whether a lit pixel went unlit (R152). -/
def blit (x0 y0 : Byte) (sprite : List Byte) (d : Display) : Display × Bool := blitRows x0 y0 0 sprite (d, false)

/-- ClearScreen `00E0` (R150). -/
def execClearScreen (s : State) : Result := .next (s.setDisp Display.allBlack).advance

/-- Draw `DXYN`: `n` bytes at `I`, placed at column `V[x]` and row `V[y]` as they are before `VF` is written; `n = 0` reads
nothing (R151, R152; log 16, log 21, log 25). -/
def execDraw (x y : RegNum) (n : Nibble) (s : State) : Result :=
  match s.mem.readBlock (effAddr s 0) n.toNat with
  | none => raise .memoryOutOfBounds
  | some sprite =>
    let drawn := blit (s.reg x) (s.reg y) sprite s.disp
    .next ((s.setDisp drawn.1).setFlag (flagByte drawn.2)).advance

end Sys2Proof.Machine
end

