-- ==== Sys2Proof/Machine/IndexMemory.lean ====
section
/-! DEFINITION. The index register and memory instructions (44_index_and_memory.md). An access leaves `I` as it was
(R146; log 23); an access of several bytes is all or nothing (20_memory.md R46). -/

namespace Sys2Proof.Machine

/-- Store bytes at `I` upward and advance, or MemoryOutOfBounds with no effect (R46, R146). -/
def storeAtI (bs : List Byte) (s : State) : Result :=
  match s.mem.writeBlock (effAddr s 0) bs with
  | none => raise .memoryOutOfBounds
  | some m => .next (s.setMem m).advance

/-- LoadIndex `ANNN` (R140). -/
def execLoadIndex (nnn : Imm12) (s : State) : Result := .next (s.setI (nnn.zeroExtend 16)).advance

/-- AddIndex `FX1E`: modulo 65536, no flag (R141; log 17). -/
def execAddIndex (x : RegNum) (s : State) : Result := .next (s.setI (s.i + (s.reg x).zeroExtend 16)).advance

/-- LoadFontAddr `FX29` (R142; log 18). -/
def execLoadFontAddr (x : RegNum) (s : State) : Result := .next (s.setI (glyphAddr (s.reg x))).advance

/-- StoreBCD `FX33` (R143; log 26). -/
def execStoreBCD (x : RegNum) (s : State) : Result := storeAtI (bcdDigits (s.reg x)) s

/-- StoreRegisters `FX55` (R144). -/
def execStoreRegisters (x : RegNum) (s : State) : Result := storeAtI (regBlock x s) s

/-- LoadRegisters `FX65` (R145). -/
def execLoadRegisters (x : RegNum) (s : State) : Result :=
  match s.mem.readBlock (effAddr s 0) (blockLength x) with
  | none => raise .memoryOutOfBounds
  | some bs => .next (s.setRegs 0 bs).advance

end Sys2Proof.Machine
end

