-- ==== Sys2Proof/Machine/Skip.lean ====
section
/-! DEFINITION. The conditional skips on registers (42_skip.md). -/

namespace Sys2Proof.Machine

/-- SkipEqImm `3XNN` (R110). -/
def execSkipEqImm (x : RegNum) (kk : Byte) (s : State) : Result := .next (s.skipIf (decide (s.reg x = kk)))

/-- SkipNeqImm `4XNN` (R111). -/
def execSkipNeqImm (x : RegNum) (kk : Byte) (s : State) : Result := .next (s.skipIf (decide (s.reg x ≠ kk)))

/-- SkipEqReg `5XY0` (R112). -/
def execSkipEqReg (x y : RegNum) (s : State) : Result := .next (s.skipIf (decide (s.reg x = s.reg y)))

/-- SkipNeqReg `9XY0` (R113). -/
def execSkipNeqReg (x y : RegNum) (s : State) : Result := .next (s.skipIf (decide (s.reg x ≠ s.reg y)))

end Sys2Proof.Machine
end

