-- ==== Sys2Proof/Machine/TimerKeypad.lean ====
section
/-! DEFINITION. The timer and keypad instructions (46_timers_and_keypad.md). -/

namespace Sys2Proof.Machine

/-- ReadDelay `FX07` (R160). -/
def execReadDelay (x : RegNum) (s : State) : Result := .next (s.setReg x s.dt).advance

/-- SetDelay `FX15` (R161). -/
def execSetDelay (x : RegNum) (s : State) : Result := .next (s.setDT (s.reg x)).advance

/-- SetSound `FX18` (R162). -/
def execSetSound (x : RegNum) (s : State) : Result := .next (s.setST (s.reg x)).advance

/-- SkipIfKeyDown `EX9E` (R163; log 20). -/
def execSkipIfKeyDown (x : RegNum) (s : State) : Result := .next (s.skipIf (keyDown s (s.reg x)))

/-- SkipIfKeyUp `EXA1` (R164; log 20). -/
def execSkipIfKeyUp (x : RegNum) (s : State) : Result := .next (s.skipIf (!keyDown s (s.reg x)))

/-- WaitKey `FX0A`: suspend, with `PC` already past the instruction; `V[x]` is written by `key_event` (R165; log 14). -/
def execWaitKey (x : RegNum) (s : State) : Result := .next (s.setWait (some x)).advance

end Sys2Proof.Machine
end

