-- ==== Sys2Proof/Machine/Cycle.lean ====
section
/-! DEFINITION. One cycle: fetch, decode, execute, the first error ends it (40_cycle_and_interface.md R81 to R83). -/

namespace Sys2Proof.Machine

/-- The error of a word that is not decoded (R171). A word that is not all there is a fetch beyond memory (R45; log 31). -/
def decodeFault : DecodeError → Fault
  | .unknownInstruction raw => .unknownInstruction raw
  | .truncated => .memoryOutOfBounds

/-- The decode and execute phases on a fetched word (R81, R83). -/
def runWord (raw : Word) (s : State) : Result :=
  match decode raw with
  | .error e => raise (decodeFault e)
  | .ok i => exec i s

/-- The event `cycle` (R81). Suspended, it is an empty step (R82; log 13). -/
def cycle (s : State) : Result :=
  match s.wait with
  | some _ => .next s
  | none =>
    match fetch s with
    | none => raise .memoryOutOfBounds
    | some raw => runWord raw s

/-- `s` made to fetch the word `raw` next: running (R82), `PC` where a fetch can be made (R45), the two bytes of `raw` there
(R47; log 9). -/
def placeWord (raw : Word) (s : State) : State :=
  let pc := if s.pc.toNat ≤ 0xFFE then s.pc else 0x0200#16
  { s with
    wait := none
    pc := pc
    mem := s.mem.putAll pc.toNat [highByte raw, lowByte raw] }

end Sys2Proof.Machine
end

