-- ==== Sys2Proof/Machine/Step.lean ====
section
/-! DEFINITION. `step`, the `cycle` event of the core (40_cycle_and_interface.md R81; log 10), and `withFetchWord`. -/

namespace Sys2Proof.Machine

/-- One step is one `cycle` event (R81, R208). The other events of the host are in HostEvents.lean (log 10). -/
def step : State → Host.Outcome State Fault Refusal := cycle

/-- `s` with the instruction word `w` stored where `step` fetches its next instruction (log 9). -/
def State.withFetchWord (s : State) (nbits w : Nat) : State := placeWord (tableWord nbits w) s

end Sys2Proof.Machine
end

