-- ==== Sys2Proof/Machine/HostEvents.lean ====
section
/-! DEFINITION. The host's five events, their results, and the outputs the host reads (40_cycle_and_interface.md R80 to R92;
46_timers_and_keypad.md R166, R167; 60_exceptions.md R184; 70_reset_and_hazards.md R200). -/

namespace Sys2Proof.Machine

/-- The events, one at a time and in a total order (R53, R80). Keys are a 16-bit set and a key is a 4-bit number, so no other
key can be expressed (R166, R167); a font is 80 bytes by its type (R57). -/
inductive Event where
  | reset (program : List Byte) (font : Config.Font) (qShift qJump : Bool)
  | cycle
  | tick
  | setKeys (keys : Word)
  | keyEvent (k : Nibble)
  deriving DecidableEq, Repr

/-- The two flags of a successful cycle (R84). -/
structure CycleOutcome where
  displayDirty : Bool
  waitingForKey : Bool
  deriving DecidableEq, Repr

/-- What an event returns to the host (R80). -/
inductive Report where
  /-- `tick`, `set_keys` and `key_event` return nothing. -/
  | silent
  /-- A reset that built a machine. -/
  | resetOk
  /-- `Ok(display_dirty, waiting_for_key)`. -/
  | ok (o : CycleOutcome)
  /-- `Err(kind)`; also ProgramTooLarge. -/
  | err (k : Fault)
  /-- A cycle whose instruction the model refuses; never reported by this model. -/
  | refused (r : Refusal)
  deriving DecidableEq, Repr

/-- The event `tick`: both timers count down, never below zero, in every state (R184; log 29). -/
def tick (s : State) : State :=
  let s1 := if s.dt.toNat > 0 then s.setDT (s.dt - 1#8) else s
  if s1.st.toNat > 0 then s1.setST (s1.st - 1#8) else s1

/-- The event `set_keys(S)` (R166). -/
def setKeys (keys : Word) (s : State) : State := s.setPressed keys

/-- The event `key_event(k)`: it resolves a pending WaitKey, and is ignored while running (R167; log 15). -/
def keyEvent (k : Nibble) (s : State) : State :=
  match s.wait with
  | some x => (s.setReg x (k.zeroExtend 8)).setWait none
  | none => s

/-- Memory after reset: zero, then the font at 0x050, then the program at 0x200 (R56, R200). -/
def resetMemory (program : List Byte) (font : Config.Font) : Memory :=
  Memory.putAll (Memory.putAll [] Config.fontBase font.toList) Config.progBase program

/-- The event `reset`: a fresh machine, or ProgramTooLarge and no machine (R200, R175). RAND is outside the core and is not
reset by it, so its position is an argument (R201; log 2). -/
def resetEvent (program : List Byte) (font : Config.Font) (qShift qJump : Bool) (randPos : Nat) : Except Fault State :=
  if program.length > Config.progMax then .error .programTooLarge
  else .ok { State.reset with mem := resetMemory program font, qShift := qShift, qJump := qJump, randPos := randPos }

/-- The operations that report `display_dirty`: ClearScreen and Draw, whether or not a pixel changed (R85; log 22). -/
def paints : Instr → Bool
  | .clearScreen => true
  | .draw _ _ _ => true
  | .ret | .nativeCall _ | .jump _ | .call _ | .skipEqImm _ _ | .skipNeqImm _ _ | .skipEqReg _ _ | .skipNeqReg _ _ => false
  | .loadImm _ _ | .addImm _ _ | .move _ _ | .or _ _ | .and _ _ | .xor _ _ | .addReg _ _ | .subReg _ _ => false
  | .shiftRight _ _ | .subnReg _ _ | .shiftLeft _ _ | .random _ _ | .loadIndex _ | .jumpOffset _ _ => false
  | .skipIfKeyDown _ | .skipIfKeyUp _ | .readDelay _ | .waitKey _ | .setDelay _ | .setSound _ => false
  | .addIndex _ | .loadFontAddr _ | .storeBCD _ | .storeRegisters _ | .loadRegisters _ => false

/-- The instruction that a cycle from `s` executes: none while suspended, or when the fetch or the decoder fails (R81). -/
def nextInstr (s : State) : Option Instr :=
  match s.wait with
  | some _ => none
  | none =>
    match fetch s with
    | none => none
    | some raw => (decode raw).toOption

/-- The flags of a cycle that went from `s` to `t` (R84 to R86). -/
def cycleOutcome (s t : State) : CycleOutcome where
  displayDirty := (nextInstr s).any paints
  waitingForKey := t.wait.isSome

/-- One event: the state after it and what it returns. An error leaves the state as it was (R87, R176); the events after an
error work as before (R177). -/
def applyEvent (s : State) : Event → State × Report
  | .reset program font qShift qJump =>
    match resetEvent program font qShift qJump s.randPos with
    | .error k => (s, .err k)
    | .ok t => (t, .resetOk)
  | .cycle =>
    match step s with
    | .next t => (t, .ok (cycleOutcome s t))
    | .fault k => (s, .err k)
    | .refused r => (s, .refused r)
  | .tick => (tick s, .silent)
  | .setKeys keys => (setKeys keys s, .silent)
  | .keyEvent k => (keyEvent k s, .silent)

/-- A sequence of events, one after another (R53): the last state and every report in order. -/
def runEvents (s : State) : List Event → State × List Report
  | [] => (s, [])
  | e :: es =>
    let r := applyEvent s e
    let rest := runEvents r.1 es
    (rest.1, r.2 :: rest.2)

/-- The sound output: whether the sound timer is nonzero (R90). -/
def soundOn (s : State) : Bool := decide (s.st ≠ 0#8)

/-- The number of an error kind, the spec's own numbering (R170; log 30). -/
def errorCode : Fault → Nat
  | .unknownInstruction _ => 1
  | .unsupportedNativeCall => 2
  | .stackOverflow => 3
  | .stackUnderflow => 4
  | .memoryOutOfBounds => 5
  | .programTooLarge => 6

end Sys2Proof.Machine
end

