-- ==== Sys2Proof/Safety.lean ====
section
/-! DEFINITION. What a good state and a good run are, in the terms the statements use. -/

namespace Sys2Proof

open Machine

/-- The invariant of the core. Memory is in its canonical form; `PC` never wraps: it is below 0x10FF, as is every value any
rule can write to it (10_state.md R17); a live return address is an address Call pushed, at most 0x1000 (R17, R103). -/
structure Machine.State.Inv (s : State) : Prop where
  mem_wf : Memory.wf s.mem
  pc_le : s.pc.toNat ≤ 0x10FE
  stack_le : ∀ k : Fin Config.stackDepth, k.val < s.sp.val → s.stack[k].toNat ≤ 0x1000

/-- The machine is in the state "running" (10_state.md R27). -/
abbrev Machine.State.Running (s : State) : Prop := s.wait = none

/-- A report that is an error (60_exceptions.md R170). -/
def Machine.Report.isError : Report → Bool
  | .err _ => true
  | .refused _ => true
  | .silent => false
  | .resetOk => false
  | .ok _ => false

/-- A safe run: no event of it reports an error (60_exceptions.md R177: the first error ends the run). -/
def SafeRun (s : State) (es : List Event) : Prop := ∀ r ∈ (runEvents s es).2, r.isError = false

/-- A 1 bit of the sprite lands on the pixel at (`row`, `col`): sprite pixel (`r`, `c`) is bit `7 - c` of row byte `r` and lands
on row `(y0 + r) mod 32`, column `(x0 + c) mod 64` (45_display.md R151). -/
def SpriteCovers (x0 y0 : Byte) (sprite : List Byte) (row : Fin Config.dispHeight) (col : Fin Config.dispWidth) : Prop :=
  ∃ r c b, sprite[r]? = some b ∧ c < 8 ∧ b.getLsbD (7 - c) = true ∧
    row.val = (y0.toNat + r) % 32 ∧ col.val = (x0.toNat + c) % 64

end Sys2Proof
end

