-- ==== Sys2Proof/Certificates/Slice0/Obligations.lean ====
section
/-! DEFINITION. The statements for the provers, and the words they are said in. A statement about every state holds for every
value of `Q_SHIFT`, `Q_JUMP`, the drawn byte and the keypad. `PC + 2` is the 16-bit sum; it never wraps where a cycle can run
(10_state.md R17, log 7). -/

namespace Sys2Proof.Claims

open Sys2Proof.Machine

/-- Every word that selects the row `bits`, `mask` decodes to the instruction `f raw`, with the fields `f` takes from it. -/
def EncodesAs (bits mask : Word) (f : Word → Instr) : Prop := ∀ raw : Word, raw &&& mask = bits → decode raw = .ok (f raw)

/-- A decoded word is an Operation: it decodes, and is not a native call (R69, R71). -/
def isOperation : Except DecodeError Instr → Bool
  | .ok (.nativeCall _) => false
  | .ok _ => true
  | .error _ => false

/-- A decoded word is a native call (R67). -/
def isNativeCall : Except DecodeError Instr → Bool
  | .ok (.nativeCall _) => true
  | .ok _ => false
  | .error _ => false

/-- A word is rejected (R68). -/
def isUnknown : Except DecodeError Instr → Bool
  | .ok _ => false
  | .error _ => true

/-- How many of the 4096 words of family `f` decode to something that `p` accepts. -/
def familyCount (p : Except DecodeError Instr → Bool) (f : Nat) : Nat :=
  (List.range 4096).countP fun k => p (decode (BitVec.ofNat 16 (4096 * f + k)))

/-- Every byte of memory reads as before. -/
def SameMemory (s t : State) : Prop := ∀ a : Nat, t.mem.read a = s.mem.read a

/-- Every byte of memory outside the `n` bytes at `a0`, `a0 + 1`, ... reads as before. -/
def SameMemoryOutside (a0 n : Nat) (s t : State) : Prop :=
  ∀ a : Nat, (∀ k, k < n → a ≠ a0 + k) → t.mem.read a = s.mem.read a

/-- Every general register reads as before. -/
def SameRegs (s t : State) : Prop := ∀ r, t.reg r = s.reg r

/-- Every general register but `x` reads as before. -/
def SameRegsBut (x : RegNum) (s t : State) : Prop := ∀ r, r ≠ x → t.reg r = s.reg r

/-- Every general register but `x` and the flag `V[0xF]` reads as before. -/
def SameRegsButFlagAnd (x : RegNum) (s t : State) : Prop := ∀ r, r ≠ x → r ≠ 0xF#4 → t.reg r = s.reg r

/-- The call stack is as before, its depth and every entry. -/
def SameStack (s t : State) : Prop := t.sp = s.sp ∧ ∀ k : Fin 16, t.stack[k] = s.stack[k]

/-- Every pixel is as before. -/
def SameDisplay (s t : State) : Prop := ∀ row col, t.disp.pixel row col = s.disp.pixel row col

/-- Both timers are as before. -/
def SameTimers (s t : State) : Prop := t.dt = s.dt ∧ t.st = s.st

/-- The pressed keys and the wait latch are as before. -/
def SameKeypad (s t : State) : Prop := t.keys = s.keys ∧ t.wait = s.wait

/-- The two quirk flags are as before, and no byte of RAND has been drawn. -/
def SameConfig (s t : State) : Prop := t.qShift = s.qShift ∧ t.qJump = s.qJump ∧ t.randPos = s.randPos

/-- Everything but the registers, `I` and `PC` is as before. -/
def RestSame (s t : State) : Prop :=
  SameMemory s t ∧ SameStack s t ∧ SameDisplay s t ∧ SameTimers s t ∧ SameKeypad s t ∧ SameConfig s t

/-- The `n` sprite bytes at `I` (R151). -/
def spriteAt (n : Nibble) (s : State) : List Byte :=
  (List.range n.toNat).map fun k => (s.mem.read (effAddr s k)).getD 0#8

/-- The bytes at `PC` and `PC + 1` are the two bytes of the word `raw`, the first one high (R45, R47). -/
def WordAtPC (s : State) (raw : Word) : Prop :=
  ∃ hi lo : Byte, s.mem.read s.pc.toNat = some hi ∧ s.mem.read (s.pc.toNat + 1) = some lo ∧
    raw.toNat = 256 * hi.toNat + lo.toNat

/-- Two states that differ at most in the stack entries at index `sp` and above (R19). -/
def AgreeOnLive (s t : State) : Prop :=
  t = { s with stack := t.stack } ∧ ∀ k : Fin 16, k.val < s.sp.val → t.stack[k] = s.stack[k]

/-- Not a reset event. -/
def NotReset (e : Event) : Prop := ∀ p f a b, e ≠ .reset p f a b

/-- Not a key event. -/
def NotKeyEvent (e : Event) : Prop := ∀ k, e ≠ .keyEvent k

end Sys2Proof.Claims

open Sys2Proof Sys2Proof.Machine Sys2Proof.Claims

/-! ### Encoding -/

/-- Words written out from the opcode map decode to the row they stand for, and four unassigned words to UnknownInstruction (R66;
95_test_vectors.md). That `0123`, a word of the row NativeCall with no Operation, decodes to a constructor and gets its error in
exec, where the spec's decoder raises it, is the model's choice (log 12). That a word with no pattern is UnknownInstruction is the
spec's reading (C2, D26; log 33). -/
def Obligations.WordsOfEachFormatDecode : Prop :=
  decode 0x00E0#16 = .ok .clearScreen ∧ decode 0x00EE#16 = .ok .ret ∧ decode 0x0123#16 = .ok (.nativeCall 0x123) ∧
  decode 0x1224#16 = .ok (.jump 0x224) ∧ decode 0x63A7#16 = .ok (.loadImm 0x3 0xA7) ∧ decode 0x5120#16 = .ok (.skipEqReg 0x1 0x2) ∧
  decode 0x8014#16 = .ok (.addReg 0x0 0x1) ∧ decode 0xB2F0#16 = .ok (.jumpOffset 0x2F0 0x2) ∧
  decode 0xD125#16 = .ok (.draw 0x1 0x2 0x5) ∧ decode 0xE39E#16 = .ok (.skipIfKeyDown 0x3) ∧
  decode 0xF265#16 = .ok (.loadRegisters 0x2) ∧ decode 0x5121#16 = .error (.unknownInstruction 0x5121#16) ∧
  decode 0x8128#16 = .error (.unknownInstruction 0x8128#16) ∧ decode 0xE09F#16 = .error (.unknownInstruction 0xE09F#16) ∧
  decode 0xF175#16 = .error (.unknownInstruction 0xF175#16)

/-- Decode and encode agree: every well-formed instruction is what its word, and its two bytes with anything after them, decode
to (R60, R66, R71). That the native call is among them, where R71 has no variant for it, is the model's choice (log 12). -/
def Obligations.DecodeOfEncodeIsTheInstruction : Prop :=
  ∀ i : Instr, i.WellFormed →
    decode (encode i) = .ok i ∧ ∀ rest : List Byte, decodeBytes (encodeBytes i ++ rest) = .ok (i, rest)

/-- The other direction: a word that decodes is the word of what it decodes to, which is well-formed; so decoding is injective
(R71). That a native call decodes, where R71 has no variant for it, is the model's choice (log 12). -/
def Obligations.EncodeOfDecodeIsTheWord : Prop :=
  ∀ (raw : Word) (i : Instr), decode raw = .ok i → i.WellFormed ∧ encode i = raw

/-- Decode is total and unambiguous: every word decodes by the row it selects, with that row's fields, no word selects two rows
of the map (once the two literal rows have taken their words from `0NNN`), a `0NNN` word stops with UnsupportedNativeCall, and
a word that selects no row is UnknownInstruction(raw) (R65). -/
def Obligations.DecoderFollowsTheOpcodeMap : Prop :=
  (decode 0x00E0#16 = .ok .clearScreen ∧ decode 0x00EE#16 = .ok .ret) ∧
  (∀ raw : Word, raw &&& 0xF000#16 = 0x0000#16 → raw ≠ 0x00E0#16 → raw ≠ 0x00EE#16 →
    ∀ s, runWord raw s = .fault .unsupportedNativeCall) ∧
  EncodesAs 0x1000#16 0xF000#16 (fun w => .jump (w.extractLsb 11 0)) ∧
  EncodesAs 0x2000#16 0xF000#16 (fun w => .call (w.extractLsb 11 0)) ∧
  EncodesAs 0x3000#16 0xF000#16 (fun w => .skipEqImm (w.extractLsb 11 8) (w.extractLsb 7 0)) ∧
  EncodesAs 0x4000#16 0xF000#16 (fun w => .skipNeqImm (w.extractLsb 11 8) (w.extractLsb 7 0)) ∧
  EncodesAs 0x5000#16 0xF00F#16 (fun w => .skipEqReg (w.extractLsb 11 8) (w.extractLsb 7 4)) ∧
  EncodesAs 0x6000#16 0xF000#16 (fun w => .loadImm (w.extractLsb 11 8) (w.extractLsb 7 0)) ∧
  EncodesAs 0x7000#16 0xF000#16 (fun w => .addImm (w.extractLsb 11 8) (w.extractLsb 7 0)) ∧
  EncodesAs 0x8000#16 0xF00F#16 (fun w => .move (w.extractLsb 11 8) (w.extractLsb 7 4)) ∧
  EncodesAs 0x8001#16 0xF00F#16 (fun w => .or (w.extractLsb 11 8) (w.extractLsb 7 4)) ∧
  EncodesAs 0x8002#16 0xF00F#16 (fun w => .and (w.extractLsb 11 8) (w.extractLsb 7 4)) ∧
  EncodesAs 0x8003#16 0xF00F#16 (fun w => .xor (w.extractLsb 11 8) (w.extractLsb 7 4)) ∧
  EncodesAs 0x8004#16 0xF00F#16 (fun w => .addReg (w.extractLsb 11 8) (w.extractLsb 7 4)) ∧
  EncodesAs 0x8005#16 0xF00F#16 (fun w => .subReg (w.extractLsb 11 8) (w.extractLsb 7 4)) ∧
  EncodesAs 0x8006#16 0xF00F#16 (fun w => .shiftRight (w.extractLsb 11 8) (w.extractLsb 7 4)) ∧
  EncodesAs 0x8007#16 0xF00F#16 (fun w => .subnReg (w.extractLsb 11 8) (w.extractLsb 7 4)) ∧
  EncodesAs 0x800E#16 0xF00F#16 (fun w => .shiftLeft (w.extractLsb 11 8) (w.extractLsb 7 4)) ∧
  EncodesAs 0x9000#16 0xF00F#16 (fun w => .skipNeqReg (w.extractLsb 11 8) (w.extractLsb 7 4)) ∧
  EncodesAs 0xA000#16 0xF000#16 (fun w => .loadIndex (w.extractLsb 11 0)) ∧
  EncodesAs 0xB000#16 0xF000#16 (fun w => .jumpOffset (w.extractLsb 11 0) (w.extractLsb 11 8)) ∧
  EncodesAs 0xC000#16 0xF000#16 (fun w => .random (w.extractLsb 11 8) (w.extractLsb 7 0)) ∧
  EncodesAs 0xD000#16 0xF000#16 (fun w => .draw (w.extractLsb 11 8) (w.extractLsb 7 4) (w.extractLsb 3 0)) ∧
  EncodesAs 0xE09E#16 0xF0FF#16 (fun w => .skipIfKeyDown (w.extractLsb 11 8)) ∧
  EncodesAs 0xE0A1#16 0xF0FF#16 (fun w => .skipIfKeyUp (w.extractLsb 11 8)) ∧
  EncodesAs 0xF007#16 0xF0FF#16 (fun w => .readDelay (w.extractLsb 11 8)) ∧
  EncodesAs 0xF00A#16 0xF0FF#16 (fun w => .waitKey (w.extractLsb 11 8)) ∧
  EncodesAs 0xF015#16 0xF0FF#16 (fun w => .setDelay (w.extractLsb 11 8)) ∧
  EncodesAs 0xF018#16 0xF0FF#16 (fun w => .setSound (w.extractLsb 11 8)) ∧
  EncodesAs 0xF01E#16 0xF0FF#16 (fun w => .addIndex (w.extractLsb 11 8)) ∧
  EncodesAs 0xF029#16 0xF0FF#16 (fun w => .loadFontAddr (w.extractLsb 11 8)) ∧
  EncodesAs 0xF033#16 0xF0FF#16 (fun w => .storeBCD (w.extractLsb 11 8)) ∧
  EncodesAs 0xF055#16 0xF0FF#16 (fun w => .storeRegisters (w.extractLsb 11 8)) ∧
  EncodesAs 0xF065#16 0xF0FF#16 (fun w => .loadRegisters (w.extractLsb 11 8)) ∧
  (∀ raw : Word, ∀ row ∈ opcodeMap, ∀ row' ∈ opcodeMap, row.Selects raw → row'.Selects raw → row = row') ∧
  (∀ raw : Word, (∀ row ∈ opcodeMap, ¬ row.Selects raw) → decode raw = .error (.unknownInstruction raw))

/-- The words rejected as UnknownInstruction are exactly the unassigned words of families 5, 8, 9, E and F, and the error carries
the word. That a word of a family with no pattern is this error is the spec's reading (C2, D26; log 33). That the native calls are
no error of `decode`, but of exec, is the model's choice (log 12) (R68). -/
def Obligations.UnknownWordsAreTheUnassignedOnes : Prop :=
  (∀ (raw : Word) (e : DecodeError), decode raw = .error e → e = .unknownInstruction raw) ∧
  ∀ raw : Word, decode raw = .error (.unknownInstruction raw) ↔
    (raw.toNat / 4096 = 0x5 ∧ raw.toNat % 16 ≠ 0) ∨
    (raw.toNat / 4096 = 0x8 ∧ raw.toNat % 16 ∈ [0x8, 0x9, 0xA, 0xB, 0xC, 0xD, 0xF]) ∨
    (raw.toNat / 4096 = 0x9 ∧ raw.toNat % 16 ≠ 0) ∨
    (raw.toNat / 4096 = 0xE ∧ raw.toNat % 256 ∉ [0x9E, 0xA1]) ∨
    (raw.toNat / 4096 = 0xF ∧ raw.toNat % 256 ∉ [0x07, 0x0A, 0x15, 0x18, 0x1E, 0x29, 0x33, 0x55, 0x65])

/-- Family by family, how many of its 4096 words decode to an Operation, are native calls, are unknown; in all 43954, 4094 and
17488 (R67, R68, R69). That unassigned words are unknown is C2, D26 (log 33); that a native call is a decoded constructor, and its
error exec's, is the model's choice (log 12). -/
def Obligations.DecoderWordCounts : Prop :=
  (List.range 16).map (familyCount isOperation) =
    [2, 4096, 4096, 4096, 4096, 256, 4096, 4096, 2304, 256, 4096, 4096, 4096, 4096, 32, 144] ∧
  (List.range 16).map (familyCount isNativeCall) = [4094, 0, 0, 0, 0, 0, 0, 0, 0, 0, 0, 0, 0, 0, 0, 0] ∧
  (List.range 16).map (familyCount isUnknown) =
    [0, 0, 0, 0, 0, 3840, 0, 0, 1792, 3840, 0, 0, 0, 0, 4064, 3952] ∧
  ((List.range 16).map (familyCount isOperation)).sum = 43954 ∧
  ((List.range 16).map (familyCount isNativeCall)).sum = 4094 ∧
  ((List.range 16).map (familyCount isUnknown)).sum = 17488

/-! ### The cycle -/

/-- A step runs the decoded instruction: when the machine is running and the bytes at `PC` are the bytes of a well-formed
instruction, whether `PC` is even or odd, the step is exec of it at that state (R45, R47, R48, R81). The step adds nothing
around exec. That a native call is such an instruction is the model's choice (log 12). That an odd `PC` is fetched is the spec's
choice (D2; log 8). -/
def Obligations.StepRunsTheDecodedInstruction : Prop :=
  ∀ (s : State) (raw : Word), s.Running → WordAtPC s raw →
    (∀ i, decode raw = .ok i → i.WellFormed ∧ step s = exec i s) ∧
    (∀ i : Instr, i.WellFormed → encode i = raw → step s = exec i s)

/-- A running machine fetches exactly when `PC` is at most 0xFFE, the byte at `PC` high; above that the cycle is
MemoryOutOfBounds whatever memory holds, and the state stays (R45, R47, R83). That the state stays as a fault outcome is the
model's form of an error (log 11). -/
def Obligations.FetchIsBigEndianAndBounded : Prop :=
  (∀ s : State, s.pc.toNat ≤ 0xFFE → ∃ raw, fetch s = some raw ∧ WordAtPC s raw) ∧
  (∀ s : State, s.Running → 0xFFE < s.pc.toNat → applyEvent s .cycle = (s, .err .memoryOutOfBounds))

/-- A fetched word that matches no pattern ends the cycle with UnknownInstruction carrying the word, and nothing changes (R87,
R171, R176). Which words match no pattern is the spec's reading (C2, D26; log 33). -/
def Obligations.UnknownWordEndsTheCycle : Prop :=
  ∀ (s : State) (raw : Word), s.Running → WordAtPC s raw → (∀ row ∈ opcodeMap, ¬ row.Selects raw) →
    applyEvent s .cycle = (s, .err (.unknownInstruction raw))

/-- NativeCall: a cycle on a `0NNN` word other than `00E0` and `00EE` always stops with UnsupportedNativeCall; no state is written,
so the next cycle is the same error again (R100). That the word decodes to a constructor and exec raises the error, where R100 has
the decoder raise it, is the model's choice, which no event's result or state can tell apart (log 12). -/
def Obligations.NativeCallAlwaysStops : Prop :=
  (∀ (nnn : Imm12) (s : State), exec (.nativeCall nnn) s = .fault .unsupportedNativeCall) ∧
  (∀ raw : Word, raw &&& 0xF000#16 = 0x0000#16 → raw ≠ 0x00E0#16 → raw ≠ 0x00EE#16 →
    decode raw = .ok (.nativeCall (raw.extractLsb 11 0))) ∧
  ∀ (s : State) (raw : Word), s.Running → WordAtPC s raw → raw &&& 0xF000#16 = 0x0000#16 → raw ≠ 0x00E0#16 → raw ≠ 0x00EE#16 →
    applyEvent s .cycle = (s, .err .unsupportedNativeCall)

/-- A cycle while suspended changes nothing, cannot fail, and reports waiting_for_key. The empty step is the spec's reading
(D7; log 13) (R82). -/
def Obligations.SuspendedCycleIsEmpty : Prop :=
  ∀ (s : State) (x : RegNum), s.wait = some x → step s = .next s ∧ applyEvent s .cycle = (s, .ok ⟨false, true⟩)

/-- `withFetchWord` places the word where the next step fetches, so the very next step runs it (the model's own means, log 9;
R45, R81). The hypothesis is the model's own canonical form of memory (log 5). -/
def Obligations.PlacedWordRunsNext : Prop :=
  ∀ (s : State) (nbits w : Nat), Memory.wf s.mem →
    step (s.withFetchWord nbits w) =
      match decodeTableWord nbits w with
      | some i => exec i (s.withFetchWord nbits w)
      | none => .fault (.unknownInstruction (tableWord nbits w))

/-- The new `PC` of every instruction, by class; a cycle that fails or finds the machine suspended leaves `PC` alone (R16).
Choices of the spec in it: the 16-bit sums (D1; log 7), WaitKey's `PC + 2` in its own cycle (D6; log 14), the cycle while
suspended (D7; log 13), the sum of JumpOffset kept as it is (D29; log 24), key numbers above 15 (D5; log 20). -/
def Obligations.ProgramCounterOfEveryInstruction : Prop :=
  (∀ (i : Instr) (s t : State), exec i s = .next t →
    t.pc = match i with
      | .jump nnn => nnn.zeroExtend 16
      | .call nnn => nnn.zeroExtend 16
      | .ret => (s.pop.map Prod.fst).getD 0#16
      | .jumpOffset nnn x =>
        nnn.zeroExtend 16 + (if s.qJump then s.reg x else s.reg 0x0#4).zeroExtend 16
      | .skipEqImm x kk => if s.reg x = kk then s.pc + 4#16 else s.pc + 2#16
      | .skipNeqImm x kk => if s.reg x = kk then s.pc + 2#16 else s.pc + 4#16
      | .skipEqReg x y => if s.reg x = s.reg y then s.pc + 4#16 else s.pc + 2#16
      | .skipNeqReg x y => if s.reg x = s.reg y then s.pc + 2#16 else s.pc + 4#16
      | .skipIfKeyDown x => if keyDown s (s.reg x) then s.pc + 4#16 else s.pc + 2#16
      | .skipIfKeyUp x => if keyDown s (s.reg x) then s.pc + 2#16 else s.pc + 4#16
      | _ => s.pc + 2#16) ∧
  (∀ (s : State) (k : Fault), (applyEvent s .cycle).2 = .err k → (applyEvent s .cycle).1.pc = s.pc) ∧
  (∀ (s : State), s.wait.isSome → (applyEvent s .cycle).1.pc = s.pc)

/-! ### Errors -/

/-- An instruction fails exactly where the table of R179 says, with the one kind it says, and no instruction is refused: on every
other operand and state it completes (R173, R174, R178, R179). That addresses are unbounded sums is the spec's choice
(D23; log 19). That NativeCall is an instruction which exec fails, where the table has the decode phase raise its error and knows no
such operation, is the model's choice (log 12). -/
def Obligations.InstructionFailsExactlyAsListed : Prop :=
  ∀ (i : Instr) (s : State),
    (∀ r, exec i s ≠ .refused r) ∧
    ∀ k, exec i s = .fault k ↔
      ((∃ nnn, i = .nativeCall nnn) ∧ k = .unsupportedNativeCall) ∨
      ((∃ nnn, i = .call nnn) ∧ s.sp.val = 16 ∧ k = .stackOverflow) ∨
      (i = .ret ∧ s.sp.val = 0 ∧ k = .stackUnderflow) ∨
      ((∃ x y n, i = .draw x y n ∧ n ≠ 0#4 ∧ s.i.toNat + n.toNat - 1 > 4095) ∧ k = .memoryOutOfBounds) ∨
      ((∃ x, i = .storeBCD x) ∧ s.i.toNat + 2 > 4095 ∧ k = .memoryOutOfBounds) ∨
      ((∃ x, (i = .storeRegisters x ∨ i = .loadRegisters x) ∧ s.i.toNat + x.toNat > 4095) ∧ k = .memoryOutOfBounds)

/-- The closed list: a cycle reports one of the five kinds and never ProgramTooLarge, a reset only ProgramTooLarge, the other
events report nothing, nothing is ever refused; an event that reports an error leaves the state as it was (R170, R175, R176). -/
def Obligations.ErrorsAreTheClosedListAndChangeNothing : Prop :=
  ∀ (s : State) (e : Event),
    (∀ r, (applyEvent s e).2 ≠ .refused r) ∧
    ∀ k, (applyEvent s e).2 = .err k →
      (applyEvent s e).1 = s ∧
      ((e = .cycle ∧ k ≠ .programTooLarge) ∨ (¬ NotReset e ∧ k = .programTooLarge))

/-- After an error, whatever ticks, key sets, key events and further cycles the host issues, the next cycle is the same error:
no error condition depends on the keypad, the timers or RAND. That a further cycle is possible at all is the spec's choice
(D20; log 11) (R177). -/
def Obligations.ErrorRepeatsUntilReset : Prop :=
  ∀ (s : State) (k : Fault), (applyEvent s .cycle).2 = .err k →
    ∀ es : List Event, (∀ e ∈ es, NotReset e) → (applyEvent (runEvents s es).1 .cycle).2 = .err k

/-! ### Invariants -/

/-- Every step keeps the invariant: canonical memory, `PC` below 0x10FF so that it never wraps, and every live return address at
most 0x1000 (R17, R46). The canonical form is the model's own (log 5); that `PC` has 16 bits is the spec's choice (D1; log 7),
the array of return addresses too (D21; log 28). -/
def Obligations.StepKeepsTheInvariant : Prop :=
  ∀ s t : State, s.Inv → step s = .next t → t.Inv

/-- The invariant holds after reset, for every program, font, quirk setting and RAND position; and at the model's own
`State.reset`, whose program, font and flags are log 3 and log 4 (R17, R200). The invariant holds the model's own canonical form of memory
(log 5); that `PC` is 0x200 and the stack empty after reset is the spec's choice (D12, D13; log 6). -/
def Obligations.ResetHasTheInvariant : Prop :=
  State.reset.Inv ∧
  ∀ program font qShift qJump randPos t, resetEvent program font qShift qJump randPos = .ok t → t.Inv

/-- Every sequence of the host's events keeps the invariant, so `PC` never wraps in any run (R17, R53, R80). The invariant holds
the model's own canonical form of memory (log 5), and the spec's choices of a 16-bit `PC` (D1; log 7) and of an array for the
stack (D21; log 28). -/
def Obligations.EveryRunKeepsTheInvariant : Prop :=
  ∀ (es : List Event) (s : State), s.Inv → (runEvents s es).1.Inv

/-- Stack entries at the depth and above are unobservable: two machines that differ only there give the host the same reports
under every sequence of events, and still differ only there (R19). The array form is the spec's choice (D21; log 28). -/
def Obligations.DeadStackEntriesAreUnobservable : Prop :=
  ∀ (es : List Event) (s t : State), AgreeOnLive s t →
    (runEvents s es).2 = (runEvents t es).2 ∧ AgreeOnLive (runEvents s es).1 (runEvents t es).1

/-- No instruction reads the sound timer: two machines that differ only in `ST` step alike, to states that differ at most in `ST`
(R25). -/
def Obligations.SoundTimerIsNeverRead : Prop :=
  ∀ (s : State) (b : Byte),
    (∀ t, step s = .next t → ∃ b', step (s.setST b) = .next (t.setST b')) ∧
    (∀ k, step s = .fault k → step (s.setST b) = .fault k)

/-! ### Who writes what (R33) -/

/-- Memory is written by StoreBCD and StoreRegisters and no other instruction, the display by ClearScreen and Draw and no other
(R22, R29, R41). -/
def Obligations.MemoryAndDisplayWriters : Prop :=
  ∀ (i : Instr) (s t : State), exec i s = .next t →
    ((∃ x, i = .storeBCD x ∨ i = .storeRegisters x) ∨ SameMemory s t) ∧
    ((i = .clearScreen ∨ ∃ x y n, i = .draw x y n) ∨ SameDisplay s t)

/-- The call stack is changed by Call and Return and no other instruction, `I` by LoadIndex, AddIndex and LoadFontAddr and no
other (R15, R20, R21). -/
def Obligations.StackAndIndexWriters : Prop :=
  ∀ (i : Instr) (s t : State), exec i s = .next t →
    ((i = .ret ∨ ∃ nnn, i = .call nnn) ∨ SameStack s t) ∧
    ((∃ nnn x, i = .loadIndex nnn ∨ i = .addIndex x ∨ i = .loadFontAddr x) ∨ t.i = s.i)

/-- `DT` is written by SetDelay alone, `ST` by SetSound alone, the wait latch by WaitKey alone; no instruction changes the
pressed keys or the quirk flags; Random alone draws from RAND, one byte (R24 to R28, R88; log 2 for D16). That WaitKey itself sets the latch is D6 (log 14). -/
def Obligations.TimerKeypadConfigAndRandWriters : Prop :=
  ∀ (i : Instr) (s t : State), exec i s = .next t →
    ((∃ x, i = .setDelay x) ∨ t.dt = s.dt) ∧
    ((∃ x, i = .setSound x) ∨ t.st = s.st) ∧
    ((∃ x, i = .waitKey x) ∨ t.wait = s.wait) ∧
    t.keys = s.keys ∧ t.qShift = s.qShift ∧ t.qJump = s.qJump ∧
    (((∃ x kk, i = .random x kk) ∧ t.randPos = s.randPos + 1) ∨ ((∀ x kk, i ≠ .random x kk) ∧ t.randPos = s.randPos))

/-- A register changes only as the destination of a register instruction, as one of the first `x + 1` registers under
LoadRegisters, or as the flag under the five flag-writing ALU instructions and Draw, which leave 0 or 1 in it (R11, R13). That
Or, And, Xor and AddIndex leave `VF` alone is the spec's choice (D22, D3; log 17, log 23). That the flag stays when the
destination is `VF` too is D9 (log 16). -/
def Obligations.RegisterWriters : Prop :=
  ∀ (i : Instr) (s t : State), exec i s = .next t →
    (∀ r, t.reg r ≠ s.reg r →
      (∃ kk, i = .loadImm r kk ∨ i = .addImm r kk ∨ i = .random r kk) ∨
      (∃ y, i = .move r y ∨ i = .or r y ∨ i = .and r y ∨ i = .xor r y ∨ i = .addReg r y ∨ i = .subReg r y ∨
        i = .subnReg r y ∨ i = .shiftRight r y ∨ i = .shiftLeft r y) ∨
      i = .readDelay r ∨ (∃ x, i = .loadRegisters x ∧ r.toNat ≤ x.toNat) ∨
      (r = 0xF#4 ∧ ((∃ x y n, i = .draw x y n) ∨
        ∃ x y, i = .addReg x y ∨ i = .subReg x y ∨ i = .subnReg x y ∨ i = .shiftRight x y ∨ i = .shiftLeft x y))) ∧
    (((∃ x y n, i = .draw x y n) ∨
        ∃ x y, i = .addReg x y ∨ i = .subReg x y ∨ i = .subnReg x y ∨ i = .shiftRight x y ∨ i = .shiftLeft x y) →
      t.reg 0xF#4 = 0x00#8 ∨ t.reg 0xF#4 = 0x01#8)

/-! ### Control transfer -/

/-- Jump sets `PC` to the immediate, any immediate, and changes nothing else (R102). -/
def Obligations.JumpResult : Prop :=
  EncodesAs 0x1000#16 0xF000#16 (fun w => .jump (w.extractLsb 11 0)) ∧
  ∀ (nnn : Imm12) (s : State), ∃ t, exec (.jump nnn) s = .next t ∧
    t.pc.toNat = nnn.toNat ∧ SameRegs s t ∧ t.i = s.i ∧ RestSame s t

/-- JumpOffset sets `PC` to the immediate plus `V[0]`, or `V[x]` under `Q_JUMP`, and changes nothing else. That the sum is
neither reduced nor checked is the spec's choice (D29; log 24) (R104). -/
def Obligations.JumpOffsetResult : Prop :=
  EncodesAs 0xB000#16 0xF000#16 (fun w => .jumpOffset (w.extractLsb 11 0) (w.extractLsb 11 8)) ∧
  ∀ (nnn : Imm12) (x : RegNum) (s : State), ∃ t, exec (.jumpOffset nnn x) s = .next t ∧
    t.pc.toNat = nnn.toNat + (s.reg (if s.qJump then x else 0x0#4)).toNat ∧ SameRegs s t ∧ t.i = s.i ∧ RestSame s t

/-- Call pushes `PC + 2` and jumps, and with sixteen addresses held stops with StackOverflow; Return pops into `PC`, and on an
empty stack stops with StackUnderflow. A Call to its own address is a Call like any other (R101, R103). The array form is the spec's
choice (D21); that Return leaves all sixteen entries of it, the released one too, is the model's (log 28). -/
def Obligations.CallAndReturnResults : Prop :=
  EncodesAs 0x2000#16 0xF000#16 (fun w => .call (w.extractLsb 11 0)) ∧ decode 0x00EE#16 = .ok .ret ∧
  (∀ (nnn : Imm12) (s : State) (hs : s.sp.val < 16), ∃ t, exec (.call nnn) s = .next t ∧
    t.pc.toNat = nnn.toNat ∧ t.sp.val = s.sp.val + 1 ∧ t.stack[s.sp.val] = s.pc + 2#16 ∧
    (∀ k : Fin 16, k.val ≠ s.sp.val → t.stack[k] = s.stack[k]) ∧
    SameRegs s t ∧ t.i = s.i ∧ SameMemory s t ∧ SameDisplay s t ∧ SameTimers s t ∧ SameKeypad s t ∧ SameConfig s t) ∧
  (∀ (nnn : Imm12) (s : State), s.sp.val = 16 → exec (.call nnn) s = .fault .stackOverflow) ∧
  (∀ (s : State) (k : Fin 16), s.sp.val = k.val + 1 → ∃ t, exec .ret s = .next t ∧
    t.pc = s.stack[k] ∧ t.sp.val = k.val ∧ (∀ j : Fin 16, t.stack[j] = s.stack[j]) ∧
    SameRegs s t ∧ t.i = s.i ∧ SameMemory s t ∧ SameDisplay s t ∧ SameTimers s t ∧ SameKeypad s t ∧ SameConfig s t) ∧
  (∀ s : State, s.sp.val = 0 → exec .ret s = .fault .stackUnderflow)

/-- Call and Return are symmetric: from the state a Call leaves, and from any later state with the same call stack, Return gives
the address after the Call and the depth before it, with every older return address as it was (R101, R103). The array form of
the stack is the spec's choice (D21; log 28). -/
def Obligations.CallThenReturnRoundTrips : Prop :=
  ∀ (nnn : Imm12) (s t u : State), exec (.call nnn) s = .next t → SameStack t u →
    ∃ w, exec .ret u = .next w ∧ w.pc = s.pc + 2#16 ∧ w.sp = s.sp ∧
      ∀ k : Fin 16, k.val < s.sp.val → w.stack[k] = s.stack[k]

/-! ### Skips -/

/-- The four register skips: `PC + 4` exactly when the condition holds, else `PC + 2`, and nothing else changes (R110 to
R113). -/
def Obligations.RegisterSkipResults : Prop :=
  EncodesAs 0x3000#16 0xF000#16 (fun w => .skipEqImm (w.extractLsb 11 8) (w.extractLsb 7 0)) ∧
  EncodesAs 0x4000#16 0xF000#16 (fun w => .skipNeqImm (w.extractLsb 11 8) (w.extractLsb 7 0)) ∧
  EncodesAs 0x5000#16 0xF00F#16 (fun w => .skipEqReg (w.extractLsb 11 8) (w.extractLsb 7 4)) ∧
  EncodesAs 0x9000#16 0xF00F#16 (fun w => .skipNeqReg (w.extractLsb 11 8) (w.extractLsb 7 4)) ∧
  (∀ raw : Word, raw.toNat / 4096 = 0x5 ∨ raw.toNat / 4096 = 0x9 → raw.toNat % 16 ≠ 0 →
    decode raw = .error (.unknownInstruction raw)) ∧
  ∀ (x y : RegNum) (kk : Byte) (s : State),
    (∃ t, exec (.skipEqImm x kk) s = .next t ∧ t.pc = s.pc + (if s.reg x = kk then 4#16 else 2#16) ∧
      SameRegs s t ∧ t.i = s.i ∧ RestSame s t) ∧
    (∃ t, exec (.skipNeqImm x kk) s = .next t ∧ t.pc = s.pc + (if s.reg x ≠ kk then 4#16 else 2#16) ∧
      SameRegs s t ∧ t.i = s.i ∧ RestSame s t) ∧
    (∃ t, exec (.skipEqReg x y) s = .next t ∧ t.pc = s.pc + (if s.reg x = s.reg y then 4#16 else 2#16) ∧
      SameRegs s t ∧ t.i = s.i ∧ RestSame s t) ∧
    (∃ t, exec (.skipNeqReg x y) s = .next t ∧ t.pc = s.pc + (if s.reg x ≠ s.reg y then 4#16 else 2#16) ∧
      SameRegs s t ∧ t.i = s.i ∧ RestSame s t)

/-- The two key skips are complements on every state; a register value of 16 or more is no key, which is the spec's reading
(D5; log 20) (R163, R164). -/
def Obligations.KeySkipResults : Prop :=
  EncodesAs 0xE09E#16 0xF0FF#16 (fun w => .skipIfKeyDown (w.extractLsb 11 8)) ∧
  EncodesAs 0xE0A1#16 0xF0FF#16 (fun w => .skipIfKeyUp (w.extractLsb 11 8)) ∧
  ∀ (x : RegNum) (s : State),
    (∃ t, exec (.skipIfKeyDown x) s = .next t ∧
      t.pc = s.pc + (if (s.reg x).toNat < 16 ∧ s.keys.getLsbD (s.reg x).toNat = true then 4#16 else 2#16) ∧
      SameRegs s t ∧ t.i = s.i ∧ RestSame s t) ∧
    (∃ t, exec (.skipIfKeyUp x) s = .next t ∧
      t.pc = s.pc + (if (s.reg x).toNat < 16 ∧ s.keys.getLsbD (s.reg x).toNat = true then 2#16 else 4#16) ∧
      SameRegs s t ∧ t.i = s.i ∧ RestSame s t)

/-! ### Registers -/

/-- LoadImm, AddImm and Move: the destination gets the immediate, the sum modulo 256, the other register; no other register
changes, `VF` among them, and nothing else does (R120, R121, R123). -/
def Obligations.LoadAddMoveResults : Prop :=
  EncodesAs 0x6000#16 0xF000#16 (fun w => .loadImm (w.extractLsb 11 8) (w.extractLsb 7 0)) ∧
  EncodesAs 0x7000#16 0xF000#16 (fun w => .addImm (w.extractLsb 11 8) (w.extractLsb 7 0)) ∧
  EncodesAs 0x8000#16 0xF00F#16 (fun w => .move (w.extractLsb 11 8) (w.extractLsb 7 4)) ∧
  ∀ (x y : RegNum) (kk : Byte) (s : State),
    (∃ t, exec (.loadImm x kk) s = .next t ∧ t.reg x = kk ∧
      SameRegsBut x s t ∧ t.pc = s.pc + 2#16 ∧ t.i = s.i ∧ RestSame s t) ∧
    (∃ t, exec (.addImm x kk) s = .next t ∧ (t.reg x).toNat = ((s.reg x).toNat + kk.toNat) % 256 ∧
      SameRegsBut x s t ∧ t.pc = s.pc + 2#16 ∧ t.i = s.i ∧ RestSame s t) ∧
    (∃ t, exec (.move x y) s = .next t ∧ t.reg x = s.reg y ∧
      SameRegsBut x s t ∧ t.pc = s.pc + 2#16 ∧ t.i = s.i ∧ RestSame s t)

/-- Or, And, Xor work bit by bit and change the destination register alone. That they leave `VF` is the spec's choice
(D22; log 23) (R124 to R126). -/
def Obligations.LogicResults : Prop :=
  EncodesAs 0x8001#16 0xF00F#16 (fun w => .or (w.extractLsb 11 8) (w.extractLsb 7 4)) ∧
  EncodesAs 0x8002#16 0xF00F#16 (fun w => .and (w.extractLsb 11 8) (w.extractLsb 7 4)) ∧
  EncodesAs 0x8003#16 0xF00F#16 (fun w => .xor (w.extractLsb 11 8) (w.extractLsb 7 4)) ∧
  ∀ (x y : RegNum) (s : State),
    (∃ t, exec (.or x y) s = .next t ∧
      (∀ k, k < 8 → (t.reg x).getLsbD k = ((s.reg x).getLsbD k || (s.reg y).getLsbD k)) ∧
      SameRegsBut x s t ∧ t.pc = s.pc + 2#16 ∧ t.i = s.i ∧ RestSame s t) ∧
    (∃ t, exec (.and x y) s = .next t ∧
      (∀ k, k < 8 → (t.reg x).getLsbD k = ((s.reg x).getLsbD k && (s.reg y).getLsbD k)) ∧
      SameRegsBut x s t ∧ t.pc = s.pc + 2#16 ∧ t.i = s.i ∧ RestSame s t) ∧
    (∃ t, exec (.xor x y) s = .next t ∧
      (∀ k, k < 8 → (t.reg x).getLsbD k = ((s.reg x).getLsbD k ^^ (s.reg y).getLsbD k)) ∧
      SameRegsBut x s t ∧ t.pc = s.pc + 2#16 ∧ t.i = s.i ∧ RestSame s t)

/-- AddReg: the sum modulo 256 and the carry. With `x = 0xF` the carry is what stays, the flag being written last, which is the
spec's choice (D9; log 16) (R122, R127, R133). -/
def Obligations.AddRegResult : Prop :=
  EncodesAs 0x8004#16 0xF00F#16 (fun w => .addReg (w.extractLsb 11 8) (w.extractLsb 7 4)) ∧
  ∀ (x y : RegNum) (s : State), ∃ t, exec (.addReg x y) s = .next t ∧
    (x ≠ 0xF#4 → (t.reg x).toNat = ((s.reg x).toNat + (s.reg y).toNat) % 256) ∧
    (t.reg 0xF#4).toNat = (if (s.reg x).toNat + (s.reg y).toNat > 255 then 1 else 0) ∧
    SameRegsButFlagAnd x s t ∧ t.pc = s.pc + 2#16 ∧ t.i = s.i ∧ RestSame s t

/-- SubReg and SubnReg: the difference modulo 256 and NOT borrow, equal operands giving 1 (that reading is G4; log 27); with
`x = 0xF` the flag stays (D9; log 16) (R122, R128, R130, R133). -/
def Obligations.SubtractResults : Prop :=
  EncodesAs 0x8005#16 0xF00F#16 (fun w => .subReg (w.extractLsb 11 8) (w.extractLsb 7 4)) ∧
  EncodesAs 0x8007#16 0xF00F#16 (fun w => .subnReg (w.extractLsb 11 8) (w.extractLsb 7 4)) ∧
  ∀ (x y : RegNum) (s : State),
    (∃ t, exec (.subReg x y) s = .next t ∧
      (x ≠ 0xF#4 → (t.reg x).toNat = ((s.reg x).toNat + 256 - (s.reg y).toNat) % 256) ∧
      (t.reg 0xF#4).toNat = (if (s.reg x).toNat < (s.reg y).toNat then 0 else 1) ∧
      SameRegsButFlagAnd x s t ∧ t.pc = s.pc + 2#16 ∧ t.i = s.i ∧ RestSame s t) ∧
    (∃ t, exec (.subnReg x y) s = .next t ∧
      (x ≠ 0xF#4 → (t.reg x).toNat = ((s.reg y).toNat + 256 - (s.reg x).toNat) % 256) ∧
      (t.reg 0xF#4).toNat = (if (s.reg y).toNat < (s.reg x).toNat then 0 else 1) ∧
      SameRegsButFlagAnd x s t ∧ t.pc = s.pc + 2#16 ∧ t.i = s.i ∧ RestSame s t)

/-- The shifts by one bit, of `V[x]` or under `Q_SHIFT` of `V[y]`: half the value and its odd bit, twice the value modulo 256 and
its top bit; with `x = 0xF` the flag stays (D9; log 16) (R122, R129, R131). -/
def Obligations.ShiftResults : Prop :=
  EncodesAs 0x8006#16 0xF00F#16 (fun w => .shiftRight (w.extractLsb 11 8) (w.extractLsb 7 4)) ∧
  EncodesAs 0x800E#16 0xF00F#16 (fun w => .shiftLeft (w.extractLsb 11 8) (w.extractLsb 7 4)) ∧
  ∀ (x y : RegNum) (s : State) (a : Nat), a = (if s.qShift then s.reg y else s.reg x).toNat →
    (∃ t, exec (.shiftRight x y) s = .next t ∧
      (x ≠ 0xF#4 → (t.reg x).toNat = a / 2) ∧ (t.reg 0xF#4).toNat = a % 2 ∧
      SameRegsButFlagAnd x s t ∧ t.pc = s.pc + 2#16 ∧ t.i = s.i ∧ RestSame s t) ∧
    (∃ t, exec (.shiftLeft x y) s = .next t ∧
      (x ≠ 0xF#4 → (t.reg x).toNat = 2 * a % 256) ∧ (t.reg 0xF#4).toNat = a / 128 ∧
      SameRegsButFlagAnd x s t ∧ t.pc = s.pc + 2#16 ∧ t.i = s.i ∧ RestSame s t)

/-- Random: one byte of RAND, whatever it is, masked by the immediate; one byte is drawn, also when the immediate is 0. The form
of the draw is the model's (log 1) and its count the spec's choice (D16; log 2) (R88, R132). -/
def Obligations.RandomResult : Prop :=
  EncodesAs 0xC000#16 0xF000#16 (fun w => .random (w.extractLsb 11 8) (w.extractLsb 7 0)) ∧
  ∀ (x : RegNum) (kk : Byte) (s : State), ∃ t, exec (.random x kk) s = .next t ∧
    (∀ k, k < 8 → (t.reg x).getLsbD k = ((Config.randByte s.randPos).getLsbD k && kk.getLsbD k)) ∧
    t.randPos = s.randPos + 1 ∧ SameRegsBut x s t ∧ t.pc = s.pc + 2#16 ∧ t.i = s.i ∧
    SameMemory s t ∧ SameStack s t ∧ SameDisplay s t ∧ SameTimers s t ∧ SameKeypad s t ∧
    t.qShift = s.qShift ∧ t.qJump = s.qJump

/-! ### Index register and memory -/

/-- LoadIndex writes the immediate to `I`, bits 15 to 12 becoming 0, and changes nothing else (R140). -/
def Obligations.LoadIndexResult : Prop :=
  EncodesAs 0xA000#16 0xF000#16 (fun w => .loadIndex (w.extractLsb 11 0)) ∧
  ∀ (nnn : Imm12) (s : State), ∃ t, exec (.loadIndex nnn) s = .next t ∧
    t.i.toNat = nnn.toNat ∧ SameRegs s t ∧ t.pc = s.pc + 2#16 ∧ RestSame s t

/-- AddIndex adds modulo 65536 with no flag (the spec's choice, D3; log 17); LoadFontAddr points at the glyph of the low nibble
(D4; log 18) and reads no memory (R141, R142). -/
def Obligations.IndexArithmeticResults : Prop :=
  EncodesAs 0xF01E#16 0xF0FF#16 (fun w => .addIndex (w.extractLsb 11 8)) ∧
  EncodesAs 0xF029#16 0xF0FF#16 (fun w => .loadFontAddr (w.extractLsb 11 8)) ∧
  ∀ (x : RegNum) (s : State),
    (∃ t, exec (.addIndex x) s = .next t ∧ t.i.toNat = (s.i.toNat + (s.reg x).toNat) % 65536 ∧
      SameRegs s t ∧ t.pc = s.pc + 2#16 ∧ RestSame s t) ∧
    (∃ t, exec (.loadFontAddr x) s = .next t ∧ t.i.toNat = 0x50 + 5 * ((s.reg x).toNat % 16) ∧
      SameRegs s t ∧ t.pc = s.pc + 2#16 ∧ RestSame s t)

/-- StoreBCD stores the three decimal digits at `I`, `I + 1`, `I + 2`, and no other byte changes; with `I` above 0xFFD it stops
with MemoryOutOfBounds. That the hundreds come first is general knowledge (G3; log 26) (R46, R143). That the address is an
unbounded sum is the spec's choice (D23; log 19), that `I` stays too (D22; log 23); the hypothesis is the model's own canonical
form of memory (log 5). -/
def Obligations.StoreBCDResult : Prop :=
  EncodesAs 0xF033#16 0xF0FF#16 (fun w => .storeBCD (w.extractLsb 11 8)) ∧
  ∀ (x : RegNum) (s : State), Memory.wf s.mem →
    (effAddr s 2 ≤ 4095 → ∃ t h d o, exec (.storeBCD x) s = .next t ∧
      t.mem.read (effAddr s 0) = some h ∧ t.mem.read (effAddr s 1) = some d ∧ t.mem.read (effAddr s 2) = some o ∧
      h.toNat ≤ 9 ∧ d.toNat ≤ 9 ∧ o.toNat ≤ 9 ∧ 100 * h.toNat + 10 * d.toNat + o.toNat = (s.reg x).toNat ∧
      SameMemoryOutside (effAddr s 0) 3 s t ∧ SameRegs s t ∧ t.i = s.i ∧ t.pc = s.pc + 2#16 ∧
      SameStack s t ∧ SameDisplay s t ∧ SameTimers s t ∧ SameKeypad s t ∧ SameConfig s t) ∧
    (effAddr s 2 > 4095 → exec (.storeBCD x) s = .fault .memoryOutOfBounds)

/-- StoreRegisters stores `V[0]` to `V[x]` at `I` upward, and no other byte changes; when `I + x` is above 4095 it stops with
MemoryOutOfBounds and stores nothing. That `I` stays is the spec's choice (D22; log 23), the unbounded sum too (D23; log 19)
(R44, R46, R144). The hypothesis is the model's own canonical form of memory (log 5). -/
def Obligations.StoreRegistersResult : Prop :=
  EncodesAs 0xF055#16 0xF0FF#16 (fun w => .storeRegisters (w.extractLsb 11 8)) ∧
  ∀ (x : RegNum) (s : State), Memory.wf s.mem →
    (effAddr s x.toNat ≤ 4095 → ∃ t, exec (.storeRegisters x) s = .next t ∧
      (∀ r : RegNum, r.toNat ≤ x.toNat → t.mem.read (effAddr s r.toNat) = some (s.reg r)) ∧
      SameMemoryOutside (effAddr s 0) (x.toNat + 1) s t ∧ SameRegs s t ∧ t.i = s.i ∧ t.pc = s.pc + 2#16 ∧
      SameStack s t ∧ SameDisplay s t ∧ SameTimers s t ∧ SameKeypad s t ∧ SameConfig s t) ∧
    (effAddr s x.toNat > 4095 → exec (.storeRegisters x) s = .fault .memoryOutOfBounds)

/-- LoadRegisters loads `V[0]` to `V[x]` from `I` upward and leaves the other registers and memory; when `I + x` is above 4095 it
stops with MemoryOutOfBounds. That `I` stays is the spec's choice (D22; log 23), the unbounded sum too (D23; log 19)
(R44, R46, R145). -/
def Obligations.LoadRegistersResult : Prop :=
  EncodesAs 0xF065#16 0xF0FF#16 (fun w => .loadRegisters (w.extractLsb 11 8)) ∧
  ∀ (x : RegNum) (s : State),
    (effAddr s x.toNat ≤ 4095 → ∃ t, exec (.loadRegisters x) s = .next t ∧
      (∀ r : RegNum, r.toNat ≤ x.toNat → s.mem.read (effAddr s r.toNat) = some (t.reg r)) ∧
      (∀ r : RegNum, x.toNat < r.toNat → t.reg r = s.reg r) ∧ t.i = s.i ∧ t.pc = s.pc + 2#16 ∧ RestSame s t) ∧
    (effAddr s x.toNat > 4095 → exec (.loadRegisters x) s = .fault .memoryOutOfBounds)

/-- What StoreRegisters stored, LoadRegisters loads back, in any later state with the same memory and `I` (R144, R145; that `I`
stays: D22, log 23). The hypothesis on memory is the model's own canonical form (log 5). -/
def Obligations.StoreThenLoadRestoresRegisters : Prop :=
  ∀ (x : RegNum) (s t u : State), Memory.wf s.mem → exec (.storeRegisters x) s = .next t → SameMemory t u → u.i = t.i →
    ∃ w, exec (.loadRegisters x) u = .next w ∧ ∀ r : RegNum, r.toNat ≤ x.toNat → w.reg r = s.reg r

/-- A store into the instruction stream is seen by the very next fetch: after StoreRegisters has stored over the two bytes at
the new `PC`, the next step runs the word that two of the registers make (R45, R47, R55). The hypothesis on memory is the
model's own canonical form (log 5). -/
def Obligations.StoredWordIsExecutedNext : Prop :=
  ∀ (x r q : RegNum) (s t : State), Memory.wf s.mem → s.Running → exec (.storeRegisters x) s = .next t →
    q.toNat ≤ x.toNat → q.toNat = r.toNat + 1 → t.pc.toNat = effAddr s r.toNat →
    step t = runWord (s.reg r ++ s.reg q) t

/-- Byte reads and writes: bounded by 4095 and never wrapped; inside, a write answers and changes what that one address reads as
(R42, R43). That it keeps memory canonical is about the model's own form of memory (log 5); that every address 0 to 4095 is
writable is the spec's choice (C10, D28; log 34). -/
def Obligations.ReadAfterWrite : Prop :=
  ∀ (m : Memory) (a : Nat) (b : Byte), Memory.wf m →
    (a ≤ 4095 → (∃ c, m.read a = some c) ∧ ∃ m', m.write a b = some m' ∧ Memory.wf m' ∧
      ∀ c, m'.read c = if c = a then some b else m.read c) ∧
    (a > 4095 → m.read a = none ∧ m.write a b = none)

/-- Equal memories are equal data: two canonical memories that read alike at every address are the same list (the model's
canonical form, log 5; R40). -/
def Obligations.MemoriesThatReadAlikeAreEqual : Prop :=
  ∀ m m' : Memory, Memory.wf m → Memory.wf m' → (∀ a, m.read a = m'.read a) → m = m'

/-! ### Display -/

/-- ClearScreen makes every pixel Black whatever it was, and leaves `VF` and everything else (R150). That the pixels are an
inductive type is the model's form (log 32). -/
def Obligations.ClearScreenResult : Prop :=
  decode 0x00E0#16 = .ok .clearScreen ∧
  ∀ s : State, ∃ t, exec .clearScreen s = .next t ∧ (∀ row col, t.disp.pixel row col = .black) ∧
    SameRegs s t ∧ t.i = s.i ∧ t.pc = s.pc + 2#16 ∧
    SameMemory s t ∧ SameStack s t ∧ SameTimers s t ∧ SameKeypad s t ∧ SameConfig s t

/-- Draw, in closed form: exactly the pixels that a 1 bit of the sprite lands on flip, wrapped in both directions; `VF` is 1
exactly when one of them was lit, else 0; with `n = 0` nothing is read and nothing flips; when the sprite's last byte lies beyond
4095 it stops with MemoryOutOfBounds. That bit 7 is leftmost and `V[x]` the column: G2 and the spec's inference (log 25); `n = 0`:
D11 (log 21); the coordinates read before `VF` is written: D9 (log 16); the unbounded sum: D23 (log 19) (R46, R151 to R153). -/
def Obligations.DrawResult : Prop :=
  EncodesAs 0xD000#16 0xF000#16 (fun w => .draw (w.extractLsb 11 8) (w.extractLsb 7 4) (w.extractLsb 3 0)) ∧
  ∀ (x y : RegNum) (n : Nibble) (s : State),
    (n = 0#4 ∨ effAddr s (n.toNat - 1) ≤ 4095 → ∃ t, exec (.draw x y n) s = .next t ∧
      (∀ row col, (SpriteCovers (s.reg x) (s.reg y) (spriteAt n s) row col →
          t.disp.pixel row col ≠ s.disp.pixel row col) ∧
        (¬ SpriteCovers (s.reg x) (s.reg y) (spriteAt n s) row col → t.disp.pixel row col = s.disp.pixel row col)) ∧
      (t.reg 0xF#4 = 0x01#8 ↔
        ∃ row col, SpriteCovers (s.reg x) (s.reg y) (spriteAt n s) row col ∧ s.disp.pixel row col = .white) ∧
      (t.reg 0xF#4 = 0x00#8 ↔
        ¬ ∃ row col, SpriteCovers (s.reg x) (s.reg y) (spriteAt n s) row col ∧ s.disp.pixel row col = .white) ∧
      SameRegsBut 0xF#4 s t ∧ t.i = s.i ∧ t.pc = s.pc + 2#16 ∧
      SameMemory s t ∧ SameStack s t ∧ SameTimers s t ∧ SameKeypad s t ∧ SameConfig s t) ∧
    (n ≠ 0#4 → effAddr s (n.toNat - 1) > 4095 → exec (.draw x y n) s = .fault .memoryOutOfBounds)

/-- Drawing the same sprite twice at the same place restores the display, from any display; the second Draw collides exactly
when a 1 bit of the sprite landed on a pixel that was Black before the first. (R152 corner (e) says it collides whenever the
sprite has a 1 bit, which its own pseudocode contradicts on a display already lit; log 35.) Which pixels a 1 bit lands on takes
bit 7 as leftmost and `V[x]` as the column (G2 and the spec's inference; log 25); that the flag is written last is D9 (log 16),
that `n = 0` draws nothing D11 (log 21). -/
def Obligations.DrawTwiceRestoresTheDisplay : Prop :=
  ∀ (x y : RegNum) (n : Nibble) (s t u w : State), exec (.draw x y n) s = .next t →
    SameDisplay t u → SameMemory s u → u.i = s.i → u.reg x = s.reg x → u.reg y = s.reg y →
    exec (.draw x y n) u = .next w →
    SameDisplay s w ∧
    (w.reg 0xF#4 = 0x01#8 ↔
      ∃ row col, SpriteCovers (s.reg x) (s.reg y) (spriteAt n s) row col ∧ s.disp.pixel row col = .black)

/-! ### Timers and keypad -/

/-- ReadDelay, SetDelay and SetSound copy between a register and a timer, every value, and change nothing else; `sound_on` follows
SetSound at once (R160 to R162). -/
def Obligations.TimerInstructionResults : Prop :=
  EncodesAs 0xF007#16 0xF0FF#16 (fun w => .readDelay (w.extractLsb 11 8)) ∧
  EncodesAs 0xF015#16 0xF0FF#16 (fun w => .setDelay (w.extractLsb 11 8)) ∧
  EncodesAs 0xF018#16 0xF0FF#16 (fun w => .setSound (w.extractLsb 11 8)) ∧
  ∀ (x : RegNum) (s : State),
    (∃ t, exec (.readDelay x) s = .next t ∧ t.reg x = s.dt ∧
      SameRegsBut x s t ∧ t.pc = s.pc + 2#16 ∧ t.i = s.i ∧ RestSame s t) ∧
    (∃ t, exec (.setDelay x) s = .next t ∧ t.dt = s.reg x ∧ t.st = s.st ∧ SameRegs s t ∧ t.pc = s.pc + 2#16 ∧ t.i = s.i ∧
      SameMemory s t ∧ SameStack s t ∧ SameDisplay s t ∧ SameKeypad s t ∧ SameConfig s t) ∧
    (∃ t, exec (.setSound x) s = .next t ∧ t.st = s.reg x ∧ (soundOn t = true ↔ s.reg x ≠ 0#8) ∧ t.dt = s.dt ∧
      SameRegs s t ∧ t.pc = s.pc + 2#16 ∧ t.i = s.i ∧
      SameMemory s t ∧ SameStack s t ∧ SameDisplay s t ∧ SameKeypad s t ∧ SameConfig s t)

/-- A tick counts both timers down by one, independently, never below zero, and changes nothing else, running or suspended (that
it counts while suspended: D25, log 29) (R183, R184). -/
def Obligations.TickCountsBothTimersDown : Prop :=
  ∀ (s t : State), (applyEvent s .tick).1 = t →
    t.dt.toNat = s.dt.toNat - 1 ∧ t.st.toNat = s.st.toNat - 1 ∧ (soundOn t = true ↔ s.st.toNat > 1) ∧
    SameRegs s t ∧ t.i = s.i ∧ t.pc = s.pc ∧
    SameMemory s t ∧ SameStack s t ∧ SameDisplay s t ∧ SameKeypad s t ∧ SameConfig s t ∧
    (applyEvent s .tick).2 = .silent

/-- `set_keys` replaces the whole pressed set and does nothing else, in either state of the machine; it never ends a wait; no
other event but reset changes the set (R26, R166). That a key event leaves the set is D8 (log 15). -/
def Obligations.SetKeysReplacesTheSet : Prop :=
  (∀ (s : State) (keys : Word),
    (applyEvent s (.setKeys keys)).2 = .silent ∧
    (applyEvent s (.setKeys keys)).1.keys = keys ∧ (applyEvent s (.setKeys keys)).1.wait = s.wait ∧
    { (applyEvent s (.setKeys keys)).1 with keys := s.keys } = s) ∧
  ∀ (s : State) (e : Event), NotReset e → (∀ keys, e ≠ .setKeys keys) → (applyEvent s e).1.keys = s.keys

/-- WaitKey suspends for `V[x]` with `PC` moved on (D6; log 14) and writes no register; the key event then writes the key to
`V[x]`, ends the wait and changes nothing else; a key event while running is ignored (D8; log 15) (R165, R167). -/
def Obligations.WaitKeyAndKeyEventResults : Prop :=
  EncodesAs 0xF00A#16 0xF0FF#16 (fun w => .waitKey (w.extractLsb 11 8)) ∧
  (∀ (x : RegNum) (s : State), ∃ t, exec (.waitKey x) s = .next t ∧ t.wait = some x ∧ t.keys = s.keys ∧
    SameRegs s t ∧ t.pc = s.pc + 2#16 ∧ t.i = s.i ∧
    SameMemory s t ∧ SameStack s t ∧ SameDisplay s t ∧ SameTimers s t ∧ SameConfig s t) ∧
  (∀ (x : RegNum) (k : Nibble) (s t : State), s.wait = some x → (applyEvent s (.keyEvent k)).1 = t →
    (t.reg x).toNat = k.toNat ∧ t.wait = none ∧ t.keys = s.keys ∧ SameRegsBut x s t ∧ t.pc = s.pc ∧ t.i = s.i ∧
    SameMemory s t ∧ SameStack s t ∧ SameDisplay s t ∧ SameTimers s t ∧ SameConfig s t) ∧
  (∀ (k : Nibble) (s : State), s.Running → applyEvent s (.keyEvent k) = (s, .silent))

/-- A suspension ends only by a key event or a reset: through any other events, however many, the machine stays suspended for
the same register, with registers, `PC`, memory, stack and display as they were; only ticks and `set_keys` are seen (R27, R82,
R188; the empty step is D7, log 13). That ticks count in a suspension is D25 (log 29). -/
def Obligations.SuspensionEndsOnlyByKeyEventOrReset : Prop :=
  ∀ (es : List Event) (s t : State) (x : RegNum), s.wait = some x → (∀ e ∈ es, NotReset e ∧ NotKeyEvent e) →
    (runEvents s es).1 = t →
    t.wait = some x ∧ SameRegs s t ∧ t.pc = s.pc ∧ t.i = s.i ∧ SameMemory s t ∧ SameStack s t ∧ SameDisplay s t ∧
    SameConfig s t ∧ t.dt.toNat ≤ s.dt.toNat ∧ t.st.toNat ≤ s.st.toNat

/-! ### Reset and the host -/

/-- Reset fills memory: zero, the font at 0x050, the program at 0x200 byte for byte; a program of 3584 bytes is accepted and a
longer one is ProgramTooLarge and builds nothing, a previous machine staying as it was (R56, R175). -/
def Obligations.ResetLoadsMemory : Prop :=
  ∀ (program : List Byte) (font : Config.Font) (qShift qJump : Bool) (randPos : Nat),
    (program.length > 3584 → resetEvent program font qShift qJump randPos = .error .programTooLarge ∧
      ∀ s, applyEvent s (.reset program font qShift qJump) = (s, .err .programTooLarge)) ∧
    (program.length ≤ 3584 → ∃ t, resetEvent program font qShift qJump randPos = .ok t ∧
      (∀ k : Fin 80, t.mem.read (0x050 + k.val) = some font[k]) ∧
      (∀ k (hk : k < program.length), t.mem.read (0x200 + k) = some program[k]) ∧
      (∀ a, a < 4096 → ¬ (0x050 ≤ a ∧ a ≤ 0x09F) → ¬ (0x200 ≤ a ∧ a < 0x200 + program.length) →
        t.mem.read a = some 0x00#8))

/-- Reset leaves every other field at its value of R32 and the quirk flags at the arguments, and the whole record is the same
for the same arguments, whatever went before; the values are the spec's choice (D12, D13; log 6). The model's `State.reset` is
the reset with no program, the default font (G1; log 4) and both flags false (the model's choice, log 3) (R200 to R202). That
its memory lists nothing is the model's own form (log 5), that its draw counter is 0 the model's choice (log 2). -/
def Obligations.ResetLeavesTheListedValues : Prop :=
  (∀ (s : State) (program : List Byte) (font : Config.Font) (qShift qJump : Bool) (t : State),
    program.length ≤ 3584 → (applyEvent s (.reset program font qShift qJump)).1 = t →
    (applyEvent s (.reset program font qShift qJump)).2 = .resetOk ∧
    (∀ r, t.reg r = 0x00#8) ∧ t.i = 0x0000#16 ∧ t.pc = 0x0200#16 ∧ t.sp.val = 0 ∧
    (∀ row col, t.disp.pixel row col = .black) ∧ t.dt = 0x00#8 ∧ t.st = 0x00#8 ∧ soundOn t = false ∧
    t.keys = 0x0000#16 ∧ t.wait = none ∧ t.qShift = qShift ∧ t.qJump = qJump) ∧
  (∀ (s s' : State) (program : List Byte) (font : Config.Font) (qShift qJump : Bool), program.length ≤ 3584 →
    (applyEvent s (.reset program font qShift qJump)).1.toRecord =
      (applyEvent s' (.reset program font qShift qJump)).1.toRecord) ∧
  resetEvent [] Config.defaultFont false false 0 = .ok State.reset

/-- The result of a successful cycle: display_dirty exactly when the instruction executed was ClearScreen or Draw, whether or
not a pixel changed (D10; log 22), waiting_for_key exactly when a WaitKey is pending after it (R84 to R86). That a cycle while
suspended succeeds is D7 (log 13). -/
def Obligations.CycleOutcomeFlags : Prop :=
  ∀ (s t : State) (o : CycleOutcome), applyEvent s .cycle = (t, .ok o) →
    (o.displayDirty = true ↔
      s.Running ∧ ∃ raw, WordAtPC s raw ∧ (raw = 0x00E0#16 ∨ raw &&& 0xF000#16 = 0xD000#16)) ∧
    (o.waitingForKey = true ↔ t.wait ≠ none)

/-- The host's events other than reset and cycle write no memory, no display, no stack, no `I`, no `PC` and no quirk flag, and
draw nothing from RAND (R53, R92, R166, R167, R184). That a key event while running is ignored is D8 (log 15), that they draw no
byte D16 (log 2). -/
def Obligations.HostEventsTouchOnlyTheirOwn : Prop :=
  ∀ (s : State) (e : Event), NotReset e → e ≠ .cycle →
    SameMemory s (applyEvent s e).1 ∧ SameDisplay s (applyEvent s e).1 ∧ SameStack s (applyEvent s e).1 ∧
    (applyEvent s e).1.i = s.i ∧ (applyEvent s e).1.pc = s.pc ∧ SameConfig s (applyEvent s e).1 ∧
    (applyEvent s e).2 = .silent

/-! ### The randomness input -/

/-- RAND is an input and no part of the state record: two machines with equal records step alike, to equal records, wherever
each stands in the input, provided only that a Random they execute draws equal bytes (R30, R88, R91). That State holds the place
in the input beside the record is the model's choice (log 1). That Random alone draws is D16 (log 2). -/
def Obligations.RandIsAnInputOfRandomAlone : Prop :=
  ∀ s t : State, s.toRecord = t.toRecord →
    (∀ x kk, nextInstr s = some (.random x kk) → Config.randByte s.randPos = Config.randByte t.randPos) →
    (∀ s', step s = .next s' → ∃ t', step t = .next t' ∧ s'.toRecord = t'.toRecord) ∧
    (∀ k, step s = .fault k → step t = .fault k)
end

