-- ==== Sys2Proof/Laws/Encoding.lean ====
section
/-! SUPPORT. The fields of a packed word, the packed form of every word, and the fields of a masked word: what proofs about the
decoder and the encoder cite (30_encoding.md R61, R62, R66). -/

namespace Sys2Proof

/-! ### Fields and packed words as numbers -/

theorem toNat_fieldN1 (raw : Word) : (fieldN1 raw).toNat = raw.toNat / 4096 % 16 := by
  simp [fieldN1, Nat.shiftRight_eq_div_pow]

theorem toNat_fieldX (raw : Word) : (fieldX raw).toNat = raw.toNat / 256 % 16 := by
  simp [fieldX, Nat.shiftRight_eq_div_pow]

theorem toNat_fieldY (raw : Word) : (fieldY raw).toNat = raw.toNat / 16 % 16 := by
  simp [fieldY, Nat.shiftRight_eq_div_pow]

theorem toNat_fieldN (raw : Word) : (fieldN raw).toNat = raw.toNat % 16 := by
  simp [fieldN]

theorem toNat_fieldKK (raw : Word) : (fieldKK raw).toNat = raw.toNat % 256 := by
  simp [fieldKK]

theorem toNat_fieldNNN (raw : Word) : (fieldNNN raw).toNat = raw.toNat % 4096 := by
  simp [fieldNNN]

theorem toNat_highByte (raw : Word) : (highByte raw).toNat = raw.toNat / 256 := by
  have := raw.isLt
  simp [highByte, Nat.shiftRight_eq_div_pow]
  omega

theorem toNat_lowByte (raw : Word) : (lowByte raw).toNat = raw.toNat % 256 := by
  simp [lowByte]

theorem toNat_append {m n : Nat} (a : BitVec m) (b : BitVec n) : (a ++ b).toNat = a.toNat * 2 ^ n + b.toNat := by
  rw [BitVec.toNat_append, ← Nat.shiftLeft_add_eq_or_of_lt b.isLt, Nat.shiftLeft_eq]

theorem toNat_packNNN (a : Nibble) (b : Imm12) : (packNNN a b).toNat = a.toNat * 4096 + b.toNat := toNat_append a b

theorem toNat_packXKK (a : Nibble) (x : RegNum) (k : Byte) :
    (packXKK a x k).toNat = a.toNat * 4096 + x.toNat * 256 + k.toNat := by
  have h : (packXKK a x k).toNat = (a ++ x).toNat * 256 + k.toNat := toNat_append (a ++ x) k
  rw [h, toNat_append]; omega

theorem toNat_packXYN (a : Nibble) (x y : RegNum) (n : Nibble) :
    (packXYN a x y n).toNat = a.toNat * 4096 + x.toNat * 256 + y.toNat * 16 + n.toNat := by
  have h : (packXYN a x y n).toNat = (a ++ x ++ y).toNat * 16 + n.toNat := toNat_append (a ++ x ++ y) n
  rw [h, toNat_append, toNat_append]; omega

theorem toNat_wordOfBytes (hi lo : Byte) : (wordOfBytes hi lo).toNat = hi.toNat * 256 + lo.toNat := toNat_append hi lo

/-! ### Fields of a word of format NNN -/

@[simp] theorem fieldN1_packNNN (a : Nibble) (b : Imm12) : fieldN1 (packNNN a b) = a := by
  apply BitVec.eq_of_toNat_eq
  have := a.isLt
  have := b.isLt
  rw [toNat_fieldN1, toNat_packNNN]; omega

@[simp] theorem fieldNNN_packNNN (a : Nibble) (b : Imm12) : fieldNNN (packNNN a b) = b := by
  apply BitVec.eq_of_toNat_eq
  have := a.isLt
  have := b.isLt
  rw [toNat_fieldNNN, toNat_packNNN]; omega

@[simp] theorem fieldX_packNNN (a : Nibble) (b : Imm12) : fieldX (packNNN a b) = b.extractLsb 11 8 := by
  apply BitVec.eq_of_toNat_eq
  have := a.isLt
  have := b.isLt
  rw [toNat_fieldX, toNat_packNNN]
  simp [Nat.shiftRight_eq_div_pow]; omega

/-! ### Fields of a word of format XKK -/

@[simp] theorem fieldN1_packXKK (a : Nibble) (x : RegNum) (k : Byte) : fieldN1 (packXKK a x k) = a := by
  apply BitVec.eq_of_toNat_eq
  have := a.isLt
  have := x.isLt
  have := k.isLt
  rw [toNat_fieldN1, toNat_packXKK]; omega

@[simp] theorem fieldX_packXKK (a : Nibble) (x : RegNum) (k : Byte) : fieldX (packXKK a x k) = x := by
  apply BitVec.eq_of_toNat_eq
  have := a.isLt
  have := x.isLt
  have := k.isLt
  rw [toNat_fieldX, toNat_packXKK]; omega

@[simp] theorem fieldKK_packXKK (a : Nibble) (x : RegNum) (k : Byte) : fieldKK (packXKK a x k) = k := by
  apply BitVec.eq_of_toNat_eq
  have := a.isLt
  have := x.isLt
  have := k.isLt
  rw [toNat_fieldKK, toNat_packXKK]; omega

/-! ### Fields of a word of format XYN -/

@[simp] theorem fieldN1_packXYN (a : Nibble) (x y : RegNum) (n : Nibble) : fieldN1 (packXYN a x y n) = a := by
  apply BitVec.eq_of_toNat_eq
  have := a.isLt
  have := x.isLt
  have := y.isLt
  have := n.isLt
  rw [toNat_fieldN1, toNat_packXYN]; omega

@[simp] theorem fieldX_packXYN (a : Nibble) (x y : RegNum) (n : Nibble) : fieldX (packXYN a x y n) = x := by
  apply BitVec.eq_of_toNat_eq
  have := a.isLt
  have := x.isLt
  have := y.isLt
  have := n.isLt
  rw [toNat_fieldX, toNat_packXYN]; omega

@[simp] theorem fieldY_packXYN (a : Nibble) (x y : RegNum) (n : Nibble) : fieldY (packXYN a x y n) = y := by
  apply BitVec.eq_of_toNat_eq
  have := a.isLt
  have := x.isLt
  have := y.isLt
  have := n.isLt
  rw [toNat_fieldY, toNat_packXYN]; omega

@[simp] theorem fieldN_packXYN (a : Nibble) (x y : RegNum) (n : Nibble) : fieldN (packXYN a x y n) = n := by
  apply BitVec.eq_of_toNat_eq
  have := a.isLt
  have := x.isLt
  have := y.isLt
  have := n.isLt
  rw [toNat_fieldN, toNat_packXYN]; omega

/-! ### Every word is the packing of its fields -/

theorem packNNN_fields (raw : Word) : packNNN (fieldN1 raw) (fieldNNN raw) = raw := by
  apply BitVec.eq_of_toNat_eq
  have := raw.isLt
  rw [toNat_packNNN, toNat_fieldN1, toNat_fieldNNN]; omega

theorem packXKK_fields (raw : Word) : packXKK (fieldN1 raw) (fieldX raw) (fieldKK raw) = raw := by
  apply BitVec.eq_of_toNat_eq
  have := raw.isLt
  rw [toNat_packXKK, toNat_fieldN1, toNat_fieldX, toNat_fieldKK]; omega

theorem packXYN_fields (raw : Word) : packXYN (fieldN1 raw) (fieldX raw) (fieldY raw) (fieldN raw) = raw := by
  apply BitVec.eq_of_toNat_eq
  have := raw.isLt
  rw [toNat_packXYN, toNat_fieldN1, toNat_fieldX, toNat_fieldY, toNat_fieldN]; omega

/-! ### The two bytes of a word (R47) -/

@[simp] theorem wordOfBytes_bytes (raw : Word) : wordOfBytes (highByte raw) (lowByte raw) = raw := by
  apply BitVec.eq_of_toNat_eq
  have := raw.isLt
  rw [toNat_wordOfBytes, toNat_highByte, toNat_lowByte]; omega

@[simp] theorem highByte_wordOfBytes (hi lo : Byte) : highByte (wordOfBytes hi lo) = hi := by
  apply BitVec.eq_of_toNat_eq
  have := hi.isLt
  have := lo.isLt
  rw [toNat_highByte, toNat_wordOfBytes]; omega

@[simp] theorem lowByte_wordOfBytes (hi lo : Byte) : lowByte (wordOfBytes hi lo) = lo := by
  apply BitVec.eq_of_toNat_eq
  have := hi.isLt
  have := lo.isLt
  rw [toNat_lowByte, toNat_wordOfBytes]; omega

/-! ### The fields of a masked word -/

theorem fieldN1_and (a b : Word) : fieldN1 (a &&& b) = fieldN1 a &&& fieldN1 b := by
  apply BitVec.eq_of_getLsbD_eq; intro i hi
  simp only [fieldN1, BitVec.getLsbD_extractLsb, BitVec.getLsbD_and]
  by_cases h : i < 4 <;> simp [h]

theorem fieldKK_and (a b : Word) : fieldKK (a &&& b) = fieldKK a &&& fieldKK b := by
  apply BitVec.eq_of_getLsbD_eq; intro i hi
  simp only [fieldKK, BitVec.getLsbD_extractLsb, BitVec.getLsbD_and]
  by_cases h : i < 8 <;> simp [h]

theorem fieldN_and (a b : Word) : fieldN (a &&& b) = fieldN a &&& fieldN b := by
  apply BitVec.eq_of_getLsbD_eq; intro i hi
  simp only [fieldN, BitVec.getLsbD_extractLsb, BitVec.getLsbD_and]
  by_cases h : i < 4 <;> simp [h]

/-! ### Packed words under the masks of the opcode map (R66) -/

theorem and_nibble (a : Nibble) : a &&& 0xF#4 = a := BitVec.and_allOnes

theorem and_byte (a : Byte) : a &&& 0xFF#8 = a := BitVec.and_allOnes

theorem packNNN_and (a : Nibble) (b : Imm12) : packNNN a b &&& 0xF000#16 = packNNN a 0#12 := by
  have h : (0xF000#16 : Word) = packNNN 0xF#4 0#12 := rfl
  rw [h]; unfold packNNN; rw [BitVec.and_append]; congr 1
  · simp [and_nibble]
  · simp

theorem packXKK_andF000 (a : Nibble) (x : RegNum) (k : Byte) : packXKK a x k &&& 0xF000#16 = packXKK a 0#4 0#8 := by
  have h : (0xF000#16 : Word) = packXKK 0xF#4 0#4 0#8 := rfl
  rw [h]; unfold packXKK; rw [BitVec.and_append, BitVec.and_append]; congr 1
  · simp [and_nibble]
  · simp

theorem packXKK_andF0FF (a : Nibble) (x : RegNum) (k : Byte) : packXKK a x k &&& 0xF0FF#16 = packXKK a 0#4 k := by
  have h : (0xF0FF#16 : Word) = packXKK 0xF#4 0#4 0xFF#8 := rfl
  rw [h]; unfold packXKK; rw [BitVec.and_append, BitVec.and_append]; congr 1
  · simp [and_nibble]
  · simp [and_byte]

theorem packXYN_andF00F (a : Nibble) (x y : RegNum) (n : Nibble) : packXYN a x y n &&& 0xF00F#16 = packXYN a 0#4 0#4 n := by
  have h : (0xF00F#16 : Word) = packXYN 0xF#4 0#4 0#4 0xF#4 := rfl
  rw [h]; unfold packXYN; rw [BitVec.and_append, BitVec.and_append, BitVec.and_append]; congr 1
  · simp [and_nibble]
  · simp [and_nibble]

theorem packXYN_andF000 (a : Nibble) (x y : RegNum) (n : Nibble) : packXYN a x y n &&& 0xF000#16 = packXYN a 0#4 0#4 0#4 := by
  have h : (0xF000#16 : Word) = packXYN 0xF#4 0#4 0#4 0#4 := rfl
  rw [h]; unfold packXYN; rw [BitVec.and_append, BitVec.and_append, BitVec.and_append]; congr 1
  · simp [and_nibble]
  · simp

/-! ### The decoder by families (R65) -/

/-- The sixteen values of a nibble. -/
theorem nibble_cases (n : Nibble) : n = 0x0#4 ∨ n = 0x1#4 ∨ n = 0x2#4 ∨ n = 0x3#4 ∨ n = 0x4#4 ∨ n = 0x5#4 ∨ n = 0x6#4 ∨
    n = 0x7#4 ∨ n = 0x8#4 ∨ n = 0x9#4 ∨ n = 0xA#4 ∨ n = 0xB#4 ∨ n = 0xC#4 ∨ n = 0xD#4 ∨ n = 0xE#4 ∨ n = 0xF#4 := by
  have := n.isLt
  simp only [← BitVec.toNat_inj, BitVec.toNat_ofNat]
  omega

theorem decode_family0 {raw : Word} (h : fieldN1 raw = 0x0#4) : decode raw =
    if raw = 0x00E0#16 then .ok .clearScreen else if raw = 0x00EE#16 then .ok .ret else .ok (.nativeCall (fieldNNN raw)) := by
  unfold decode; simp [h]

theorem decode_family1 {raw : Word} (h : fieldN1 raw = 0x1#4) : decode raw =
    .ok (.jump (fieldNNN raw)) := by
  unfold decode; simp [h]

theorem decode_family2 {raw : Word} (h : fieldN1 raw = 0x2#4) : decode raw =
    .ok (.call (fieldNNN raw)) := by
  unfold decode; simp [h]

theorem decode_family3 {raw : Word} (h : fieldN1 raw = 0x3#4) : decode raw =
    .ok (.skipEqImm (fieldX raw) (fieldKK raw)) := by
  unfold decode; simp [h]

theorem decode_family4 {raw : Word} (h : fieldN1 raw = 0x4#4) : decode raw =
    .ok (.skipNeqImm (fieldX raw) (fieldKK raw)) := by
  unfold decode; simp [h]

theorem decode_family5 {raw : Word} (h : fieldN1 raw = 0x5#4) : decode raw =
    if fieldN raw = 0x0#4 then .ok (.skipEqReg (fieldX raw) (fieldY raw)) else .error (.unknownInstruction raw) := by
  unfold decode; simp [h]

theorem decode_family6 {raw : Word} (h : fieldN1 raw = 0x6#4) : decode raw =
    .ok (.loadImm (fieldX raw) (fieldKK raw)) := by
  unfold decode; simp [h]

theorem decode_family7 {raw : Word} (h : fieldN1 raw = 0x7#4) : decode raw =
    .ok (.addImm (fieldX raw) (fieldKK raw)) := by
  unfold decode; simp [h]

theorem decode_family8 {raw : Word} (h : fieldN1 raw = 0x8#4) : decode raw =
    decodeFamily8 raw := by
  unfold decode; simp [h]

theorem decode_family9 {raw : Word} (h : fieldN1 raw = 0x9#4) : decode raw =
    if fieldN raw = 0x0#4 then .ok (.skipNeqReg (fieldX raw) (fieldY raw)) else .error (.unknownInstruction raw) := by
  unfold decode; simp [h]

theorem decode_familyA {raw : Word} (h : fieldN1 raw = 0xA#4) : decode raw =
    .ok (.loadIndex (fieldNNN raw)) := by
  unfold decode; simp [h]

theorem decode_familyB {raw : Word} (h : fieldN1 raw = 0xB#4) : decode raw =
    .ok (.jumpOffset (fieldNNN raw) (fieldX raw)) := by
  unfold decode; simp [h]

theorem decode_familyC {raw : Word} (h : fieldN1 raw = 0xC#4) : decode raw =
    .ok (.random (fieldX raw) (fieldKK raw)) := by
  unfold decode; simp [h]

theorem decode_familyD {raw : Word} (h : fieldN1 raw = 0xD#4) : decode raw =
    .ok (.draw (fieldX raw) (fieldY raw) (fieldN raw)) := by
  unfold decode; simp [h]

theorem decode_familyE {raw : Word} (h : fieldN1 raw = 0xE#4) : decode raw =
    decodeFamilyE raw := by
  unfold decode; simp [h]

theorem decode_familyF {raw : Word} (h : fieldN1 raw = 0xF#4) : decode raw =
    decodeFamilyF raw := by
  unfold decode; simp [h]

/-- Decoding the two bytes of a word decodes the word (R47, R60). -/
theorem decodeBytes_bytes (raw : Word) (rest : List Byte) :
    decodeBytes (highByte raw :: lowByte raw :: rest) = (decode raw).map fun i => (i, rest) := by
  rw [decodeBytes, wordOfBytes_bytes]
  cases decode raw <;> rfl

/-- A table word of all sixteen bits is the word itself. -/
theorem decodeTableWord_eq (nbits w : Nat) : decodeTableWord nbits w = (decode (tableWord nbits w)).toOption := by
  rw [decodeTableWord, decodeBytes_bytes]
  cases decode (tableWord nbits w) <;> rfl

end Sys2Proof
end

