-- ==== Sys2Proof/Laws/Graphics.lean ====
section
/-! SUPPORT. What reading a pixel gives after a write, after a clear and after a blit, and when a blit hits (45_display.md R150
to R152). The closed form of a blit is `blit_pixel` and `blit_hit`. -/

namespace Sys2Proof.Machine

/-- A pixel write changes the pixel it names and no other (R22). -/
theorem pixel_setPixel (d : Display) (row row' : Fin Config.dispHeight) (col col' : Fin Config.dispWidth) (p : Pixel) :
    (d.setPixel row col p).pixel row' col' = if row' = row ∧ col' = col then p else d.pixel row' col' := by
  unfold Display.setPixel Display.pixel
  by_cases h : row' = row
  · subst h
    by_cases h2 : col' = col
    · subst h2; simp
    · have : col.val ≠ col'.val := fun e => h2 (Fin.ext e.symm)
      simp [h2, this]
  · have : row.val ≠ row'.val := fun e => h (Fin.ext e.symm)
    simp [h, this]

/-- Every pixel of the cleared display is Black (R150). -/
@[simp] theorem pixel_allBlack (row : Fin Config.dispHeight) (col : Fin Config.dispWidth) :
    Display.allBlack.pixel row col = .black := by
  simp [Display.allBlack, Display.pixel]

/-- Two displays that read alike are equal. -/
theorem display_ext {d e : Display} (h : ∀ row col, d.pixel row col = e.pixel row col) : d = e := by
  apply Vector.ext; intro r hr
  apply Vector.ext; intro c hc
  exact h ⟨r, hr⟩ ⟨c, hc⟩

/-- Flipping twice is no change (R152). -/
@[simp] theorem flip_flip (p : Pixel) : p.flip.flip = p := by cases p <;> rfl

/-- Two columns offsets below 64 that wrap to one column are equal (R152 corner d). -/
theorem wrapCol_inj {x0 : Byte} {c c' : Nat} (h : c < 64) (h' : c' < 64) (e : wrapCol x0 c = wrapCol x0 c') : c = c' := by
  have := congrArg Fin.val e
  simp only [wrapCol] at this
  omega

/-- Two row offsets below 32 that wrap to one row are equal (R152 corner d). -/
theorem wrapRow_inj {y0 : Byte} {r r' : Nat} (h : r < 32) (h' : r' < 32) (e : wrapRow y0 r = wrapRow y0 r') : r = r' := by
  have := congrArg Fin.val e
  simp only [wrapRow] at this
  omega

/-- A run of sprite pixels of one row at distinct columns: the pixels under its 1 bits flip, and it hits exactly when one of them
was lit. -/
theorem blitBits_spec (x0 y0 : Byte) (r : Nat) (b : Byte) (cs : List Nat) (hd : cs.Nodup) (hc : ∀ c ∈ cs, c < 64)
    (acc : Display × Bool) :
    (∀ row col, (cs.foldl (blitBit x0 y0 r b) acc).1.pixel row col =
      if row = wrapRow y0 r ∧ ∃ c ∈ cs, spriteBit b c = true ∧ col = wrapCol x0 c then (acc.1.pixel row col).flip
      else acc.1.pixel row col) ∧
    ((cs.foldl (blitBit x0 y0 r b) acc).2 = true ↔
      acc.2 = true ∨ ∃ c ∈ cs, spriteBit b c = true ∧ acc.1.pixel (wrapRow y0 r) (wrapCol x0 c) = .white) := by
  induction cs generalizing acc with
  | nil => simp
  | cons c cs ih =>
    have hd' := List.nodup_cons.1 hd
    have hc' : ∀ k ∈ cs, k < 64 := fun k hk => hc k (List.mem_cons_of_mem _ hk)
    obtain ⟨ih1, ih2⟩ := ih hd'.2 hc' (blitBit x0 y0 r b acc c)
    rw [List.foldl_cons]
    have hne : ∀ k ∈ cs, wrapCol x0 k ≠ wrapCol x0 c := fun k hk e => by
      have := wrapCol_inj (hc' k hk) (hc c (by simp)) e
      exact hd'.1 (this ▸ hk)
    by_cases hb : spriteBit b c = true
    · have hbit : blitBit x0 y0 r b acc c = (acc.1.setPixel (wrapRow y0 r) (wrapCol x0 c)
          (acc.1.pixel (wrapRow y0 r) (wrapCol x0 c)).flip, acc.2 || collides (acc.1.pixel (wrapRow y0 r) (wrapCol x0 c))) := by
        simp [blitBit, hb]
      rw [hbit] at ih1 ih2 ⊢
      refine ⟨fun row col => ?_, ?_⟩
      · rw [ih1, pixel_setPixel]
        by_cases hr : row = wrapRow y0 r
        · by_cases hcol : col = wrapCol x0 c
          · have h1 : ¬ ∃ k ∈ cs, spriteBit b k = true ∧ col = wrapCol x0 k := by
              rintro ⟨k, hk, _, e⟩
              exact hne k hk (e.symm.trans hcol)
            subst hr hcol
            simp [h1, hb]
          · simp [hr, hcol]
        · simp [hr]
      · rw [ih2]
        simp only [Bool.or_eq_true, collides, decide_eq_true_eq, List.mem_cons, exists_eq_or_imp, hb, true_and, or_assoc]
        have e : (∃ k ∈ cs, spriteBit b k = true ∧ (acc.1.setPixel (wrapRow y0 r) (wrapCol x0 c)
            (acc.1.pixel (wrapRow y0 r) (wrapCol x0 c)).flip).pixel (wrapRow y0 r) (wrapCol x0 k) = .white) ↔
            ∃ k ∈ cs, spriteBit b k = true ∧ acc.1.pixel (wrapRow y0 r) (wrapCol x0 k) = .white := by
          refine exists_congr fun k => and_congr_right fun hk => and_congr_right fun _ => ?_
          rw [pixel_setPixel]
          simp [hne k hk]
        rw [e]
    · have hbit : blitBit x0 y0 r b acc c = acc := by simp [blitBit, hb]
      rw [hbit] at ih1 ih2 ⊢
      refine ⟨fun row col => ?_, ?_⟩
      · rw [ih1]; simp [hb]
      · rw [ih2]; simp [hb]

/-- One sprite row. -/
theorem blitRow_spec (x0 y0 : Byte) (r : Nat) (b : Byte) (acc : Display × Bool) :
    (∀ row col, (blitRow x0 y0 r b acc).1.pixel row col =
      if row = wrapRow y0 r ∧ ∃ c ∈ spriteCols, spriteBit b c = true ∧ col = wrapCol x0 c then
        (acc.1.pixel row col).flip else acc.1.pixel row col) ∧
    ((blitRow x0 y0 r b acc).2 = true ↔ acc.2 = true ∨
      ∃ c ∈ spriteCols, spriteBit b c = true ∧ acc.1.pixel (wrapRow y0 r) (wrapCol x0 c) = .white) :=
  blitBits_spec x0 y0 r b _ (by decide) (by decide) acc

/-- A 1 bit of the sprite, whose first row is number `r0`, lands on a pixel. -/
def CoversFrom (x0 y0 : Byte) (r0 : Nat) (bs : List Byte) (row : Fin Config.dispHeight) (col : Fin Config.dispWidth) : Prop :=
  ∃ k b c, bs[k]? = some b ∧ c < 8 ∧ spriteBit b c = true ∧ row = wrapRow y0 (r0 + k) ∧ col = wrapCol x0 c

theorem coversFrom_cons (x0 y0 : Byte) (r0 : Nat) (b : Byte) (bs : List Byte) (row : Fin Config.dispHeight)
    (col : Fin Config.dispWidth) :
    CoversFrom x0 y0 r0 (b :: bs) row col ↔
      (row = wrapRow y0 r0 ∧ ∃ c ∈ spriteCols, spriteBit b c = true ∧ col = wrapCol x0 c) ∨
      CoversFrom x0 y0 (r0 + 1) bs row col := by
  constructor
  · rintro ⟨k, b', c, hk, hc, hb, hr, hcol⟩
    rcases k with _ | k
    · simp only [List.getElem?_cons_zero, Option.some.injEq] at hk
      subst hk
      refine .inl ⟨by simpa using hr, c, ?_, hb, hcol⟩
      have : c = 0 ∨ c = 1 ∨ c = 2 ∨ c = 3 ∨ c = 4 ∨ c = 5 ∨ c = 6 ∨ c = 7 := by omega
      simpa [spriteCols] using this
    · refine .inr ⟨k, b', c, by simpa using hk, hc, hb, ?_, hcol⟩
      rw [hr]; congr 1; omega
  · rintro (⟨hr, c, hc, hb, hcol⟩ | ⟨k, b', c, hk, hc, hb, hr, hcol⟩)
    · refine ⟨0, b, c, rfl, ?_, hb, by simpa using hr, hcol⟩
      simp only [spriteCols, List.mem_cons, List.not_mem_nil, or_false] at hc; omega
    · refine ⟨k + 1, b', c, by simpa using hk, hc, hb, ?_, hcol⟩
      rw [hr]; congr 1; omega

open Classical in
/-- The rows of a sprite from row `r0` on. -/
theorem blitRows_spec (x0 y0 : Byte) (r0 : Nat) (bs : List Byte) (h : r0 + bs.length ≤ 32) (acc : Display × Bool) :
    (∀ row col, (blitRows x0 y0 r0 bs acc).1.pixel row col =
      if CoversFrom x0 y0 r0 bs row col then (acc.1.pixel row col).flip else acc.1.pixel row col) ∧
    ((blitRows x0 y0 r0 bs acc).2 = true ↔
      acc.2 = true ∨ ∃ row col, CoversFrom x0 y0 r0 bs row col ∧ acc.1.pixel row col = .white) := by
  induction bs generalizing r0 acc with
  | nil => simp [blitRows, CoversFrom]
  | cons b bs ih =>
    simp only [List.length_cons] at h
    obtain ⟨ih1, ih2⟩ := ih (r0 + 1) (by omega) (blitRow x0 y0 r0 b acc)
    obtain ⟨hr1, hr2⟩ := blitRow_spec x0 y0 r0 b acc
    have hne : ∀ row col, CoversFrom x0 y0 (r0 + 1) bs row col → row ≠ wrapRow y0 r0 := by
      rintro row col ⟨k, b', c, hk, _, _, hr, _⟩ e
      have hk' : k < bs.length := by
        by_contra hge
        rw [List.getElem?_eq_none (by omega)] at hk
        cases hk
      have := wrapRow_inj (by omega) (by omega) (hr.symm.trans e)
      omega
    rw [blitRows]
    refine ⟨fun row col => ?_, ?_⟩
    · rw [ih1, hr1]
      by_cases h1 : CoversFrom x0 y0 (r0 + 1) bs row col
      · have := hne _ _ h1
        simp [coversFrom_cons, h1, this]
      · simp only [coversFrom_cons, h1, or_false, if_false]
    · rw [ih2, hr2, or_assoc]
      refine or_congr_right ?_
      constructor
      · rintro (⟨c, hc, hb, hw⟩ | ⟨row, col, hcov, hw⟩)
        · exact ⟨wrapRow y0 r0, wrapCol x0 c, (coversFrom_cons ..).2 (.inl ⟨rfl, c, hc, hb, rfl⟩), hw⟩
        · refine ⟨row, col, (coversFrom_cons ..).2 (.inr hcov), ?_⟩
          rw [hr1, if_neg fun e => hne _ _ hcov e.1] at hw
          exact hw
      · rintro ⟨row, col, hcov, hw⟩
        rcases (coversFrom_cons ..).1 hcov with ⟨rfl, c, hc, hb, rfl⟩ | hcov'
        · exact .inl ⟨c, hc, hb, hw⟩
        · refine .inr ⟨row, col, hcov', ?_⟩
          rw [hr1, if_neg fun e => hne _ _ hcov' e.1]
          exact hw

/-- The rows of a whole sprite cover what R151 says they cover. -/
theorem coversFrom_zero (x0 y0 : Byte) (bs : List Byte) (row : Fin Config.dispHeight) (col : Fin Config.dispWidth) :
    CoversFrom x0 y0 0 bs row col ↔ SpriteCovers x0 y0 bs row col := by
  constructor
  · rintro ⟨k, b, c, hk, hc, hb, hr, hcol⟩
    refine ⟨k, c, b, hk, hc, hb, ?_, ?_⟩
    · rw [hr]; simp [wrapRow]
    · rw [hcol]; rfl
  · rintro ⟨k, c, b, hk, hc, hb, hr, hcol⟩
    refine ⟨k, b, c, hk, hc, hb, ?_, ?_⟩
    · apply Fin.ext; rw [hr]; simp [wrapRow]
    · exact Fin.ext hcol

/-- A blit flips exactly the pixels that a 1 bit of the sprite lands on (R151, R152). -/
theorem blit_pixel (x0 y0 : Byte) (sprite : List Byte) (h : sprite.length ≤ 32) (d : Display) (row : Fin Config.dispHeight)
    (col : Fin Config.dispWidth) :
    (SpriteCovers x0 y0 sprite row col → (blit x0 y0 sprite d).1.pixel row col = (d.pixel row col).flip) ∧
    (¬ SpriteCovers x0 y0 sprite row col → (blit x0 y0 sprite d).1.pixel row col = d.pixel row col) := by
  have := (blitRows_spec x0 y0 0 sprite (by omega) (d, false)).1 row col
  exact ⟨fun hc => by rw [blit, this, if_pos ((coversFrom_zero ..).2 hc)],
    fun hc => by rw [blit, this, if_neg (mt (coversFrom_zero ..).1 hc)]⟩

/-- A blit hits exactly when a 1 bit of the sprite lands on a lit pixel (R152, R153). -/
theorem blit_hit (x0 y0 : Byte) (sprite : List Byte) (h : sprite.length ≤ 32) (d : Display) :
    (blit x0 y0 sprite d).2 = true ↔ ∃ row col, SpriteCovers x0 y0 sprite row col ∧ d.pixel row col = .white := by
  have := (blitRows_spec x0 y0 0 sprite (by omega) (d, false)).2
  simpa [coversFrom_zero, blit] using this

end Sys2Proof.Machine
end

