-- ==== Sys2Proof/Laws/Memory.lean ====
section
/-! SUPPORT. The laws of memory: read after write, the canonical form is kept by every operation, equal readings are equal
memories, and what a block read or write does (20_memory.md R42, R43, R46). -/

namespace Sys2Proof.Machine.Memory

/-- A cell reads back what was put into it, and every other cell reads as before. -/
theorem byteAt_put (m : Memory) (hm : m.Pairwise (fun c d => c.1 < d.1)) (a c : Nat) (b : Byte) :
    (m.put a b).byteAt c = if c = a then b else m.byteAt c := by
  induction m with
  | nil =>
    by_cases hb : b = initialByte a
    · by_cases hc : c = a <;> simp [put, byteAt, hb, hc]
    · by_cases hc : c = a <;> simp [put, byteAt, hb, hc]
  | cons x m ih =>
    obtain ⟨a', b'⟩ := x
    have hlt : ∀ d ∈ m, a' < d.1 := fun d hd => (List.pairwise_cons.1 hm).1 d hd
    have hm' := (List.pairwise_cons.1 hm).2
    have absent : ∀ (l : Memory), (∀ d ∈ l, a < d.1) → byteAt l a = initialByte a := by
      intro l hl
      induction l with
      | nil => rfl
      | cons y l ihl =>
        have h1 : a < y.1 := hl y (by simp)
        have h2 : a ≠ y.1 := by omega
        obtain ⟨y1, y2⟩ := y
        simp only [byteAt]
        simp only at h2
        rw [if_neg h2]
        exact ihl fun d hd => hl d (by simp [hd])
    simp only [put]
    by_cases h1 : a < a'
    · rw [if_pos h1]
      have habs : byteAt ((a', b') :: m) a = initialByte a := by
        apply absent
        intro d hd
        rcases List.mem_cons.1 hd with rfl | hd
        · exact h1
        · exact lt_trans h1 (hlt d hd)
      by_cases hb : b = initialByte a
      · rw [if_pos hb]
        by_cases hc : c = a
        · subst hc; simp [habs, hb]
        · simp [hc]
      · rw [if_neg hb]
        by_cases hc : c = a <;> simp [byteAt, hc]
    · rw [if_neg h1]
      by_cases h2 : a = a'
      · subst h2
        rw [if_pos rfl]
        have habs : byteAt m a = initialByte a := absent m fun d hd => hlt d hd
        by_cases hb : b = initialByte a
        · rw [if_pos hb]
          by_cases hc : c = a
          · subst hc; simp [habs, hb]
          · simp [byteAt, hc]
        · rw [if_neg hb]
          by_cases hc : c = a <;> simp [byteAt, hc]
      · rw [if_neg h2]
        simp only [byteAt, ih hm']
        by_cases hc : c = a
        · subst hc; simp [h2]
        · simp [hc]

/-- Putting a byte adds at most the put address to the listed ones. -/
theorem mem_put {m : Memory} {a : Nat} {b : Byte} {c : Host.Cell} (h : c ∈ m.put a b) :
    (c = (a, b) ∧ b ≠ initialByte a) ∨ c ∈ m := by
  induction m with
  | nil =>
    by_cases hb : b = initialByte a
    · simp [put, hb] at h
    · simp [put, hb] at h; exact .inl ⟨h, hb⟩
  | cons x m ih =>
    obtain ⟨a', b'⟩ := x
    simp only [put] at h
    by_cases h1 : a < a'
    · rw [if_pos h1] at h
      by_cases hb : b = initialByte a
      · rw [if_pos hb] at h; exact .inr h
      · rw [if_neg hb] at h
        rcases List.mem_cons.1 h with rfl | h
        · exact .inl ⟨rfl, hb⟩
        · exact .inr h
    · rw [if_neg h1] at h
      by_cases h2 : a = a'
      · rw [if_pos h2] at h
        by_cases hb : b = initialByte a
        · rw [if_pos hb] at h; exact .inr (List.mem_cons_of_mem _ h)
        · rw [if_neg hb] at h
          rcases List.mem_cons.1 h with rfl | h
          · exact .inl ⟨rfl, hb⟩
          · exact .inr (List.mem_cons_of_mem _ h)
      · rw [if_neg h2] at h
        rcases List.mem_cons.1 h with rfl | h
        · exact .inr (by simp)
        · rcases ih h with h | h
          · exact .inl h
          · exact .inr (List.mem_cons_of_mem _ h)

/-- Putting a byte at an address inside memory keeps the canonical form. -/
theorem put_wf {m : Memory} (hm : m.wf) {a : Nat} (ha : a < Config.memSize) (b : Byte) : (m.put a b).wf := by
  refine ⟨?_, fun c hc => ?_⟩
  · have hp := hm.1
    clear hm
    induction m with
    | nil => by_cases hb : b = initialByte a <;> simp [put, hb]
    | cons x m ih =>
      obtain ⟨a', b'⟩ := x
      have hlt := (List.pairwise_cons.1 hp).1
      have hp' := (List.pairwise_cons.1 hp).2
      simp only [put]
      by_cases h1 : a < a'
      · rw [if_pos h1]
        by_cases hb : b = initialByte a
        · rw [if_pos hb]; exact hp
        · rw [if_neg hb]
          refine List.pairwise_cons.2 ⟨fun d hd => ?_, hp⟩
          rcases List.mem_cons.1 hd with rfl | hd
          · exact h1
          · exact lt_trans h1 (hlt d hd)
      · rw [if_neg h1]
        by_cases h2 : a = a'
        · subst h2
          rw [if_pos rfl]
          by_cases hb : b = initialByte a
          · rw [if_pos hb]; exact hp'
          · rw [if_neg hb]; exact List.pairwise_cons.2 ⟨hlt, hp'⟩
        · rw [if_neg h2]
          refine List.pairwise_cons.2 ⟨fun d hd => ?_, ih hp'⟩
          rcases mem_put hd with ⟨rfl, _⟩ | hd
          · show a' < a; omega
          · exact hlt d hd
  · rcases mem_put hc with ⟨rfl, hb⟩ | hc
    · exact ⟨ha, hb⟩
    · exact hm.2 c hc

/-- What a list of consecutive puts leaves in each cell. -/
theorem byteAt_putAll (m : Memory) (hm : m.wf) (a : Nat) (bs : List Byte) (h : a + bs.length ≤ Config.memSize) (c : Nat) :
    (m.putAll a bs).byteAt c = if a ≤ c then (bs[c - a]?).getD (m.byteAt c) else m.byteAt c := by
  induction bs generalizing m a with
  | nil => simp [putAll]
  | cons b bs ih =>
    simp only [List.length_cons] at h
    rw [putAll, ih _ (put_wf hm (by omega) b) _ (by omega), byteAt_put m hm.1]
    by_cases h1 : c = a
    · have : ¬ (a + 1 ≤ a) := by omega
      simp [h1]
    · by_cases h2 : a ≤ c
      · have e : c - a = (c - (a + 1)) + 1 := by omega
        have h3 : a + 1 ≤ c := by omega
        simp [h1, h2, h3, e]
      · have h3 : ¬ (a + 1 ≤ c) := by omega
        simp [h1, h2, h3]

/-- A list of consecutive puts inside memory keeps the canonical form. -/
theorem putAll_wf {m : Memory} (hm : m.wf) (a : Nat) (bs : List Byte) (h : a + bs.length ≤ Config.memSize) :
    (m.putAll a bs).wf := by
  induction bs generalizing m a with
  | nil => exact hm
  | cons b bs ih =>
    simp only [List.length_cons] at h
    exact ih (put_wf hm (by omega) b) _ (by omega)

/-- The empty list is the canonical memory of reset. -/
theorem nil_wf : Memory.wf [] := ⟨List.Pairwise.nil, fun _ h => absurd h (List.not_mem_nil)⟩

/-- A byte read answers inside memory and only there (R42). -/
theorem read_eq_some_iff {m : Memory} {a : Nat} {b : Byte} :
    m.read a = some b ↔ a < Config.memSize ∧ m.byteAt a = b := by
  unfold read
  by_cases h : a < Config.memSize <;> simp [h]

/-- A byte read inside memory (R42). -/
theorem read_of_lt {m : Memory} {a : Nat} (h : a < Config.memSize) : m.read a = some (m.byteAt a) := if_pos h

/-- A byte read outside memory (R42). -/
theorem read_of_ge {m : Memory} {a : Nat} (h : Config.memSize ≤ a) : m.read a = none := if_neg (Nat.not_lt.2 h)

/-- A byte write answers inside memory and only there (R43). -/
theorem write_eq_some_iff {m m' : Memory} {a : Nat} {b : Byte} :
    m.write a b = some m' ↔ a < Config.memSize ∧ m.put a b = m' := by
  unfold write
  by_cases h : a < Config.memSize <;> simp [h]

/-- A block read answers exactly when every address is in memory, with the bytes in order (R42, R46). -/
theorem readBlock_eq (m : Memory) (a n : Nat) :
    m.readBlock a n = if n = 0 ∨ a + n ≤ Config.memSize then some ((List.range n).map fun k => m.byteAt (a + k)) else none := by
  induction n generalizing a with
  | zero => simp [readBlock]
  | succ n ih =>
    rw [readBlock]
    by_cases h : a < Config.memSize
    · rw [read_of_lt h]
      simp only [ih (a + 1)]
      by_cases h2 : n = 0 ∨ a + 1 + n ≤ Config.memSize
      · have h3 : a + (n + 1) ≤ Config.memSize := by omega
        simp only [if_pos h2, if_pos (Or.inr h3 : n + 1 = 0 ∨ _)]
        rw [List.range_succ_eq_map]
        simp [Function.comp_def, Nat.add_assoc, Nat.add_comm 1]
      · have h3 : ¬ (n + 1 = 0 ∨ a + (n + 1) ≤ Config.memSize) := by omega
        simp only [if_neg h2, if_neg h3]
    · rw [read_of_ge (by omega)]
      have h3 : ¬ (n + 1 = 0 ∨ a + (n + 1) ≤ Config.memSize) := by omega
      simp only [if_neg h3]

/-- A block write answers exactly when every address is in memory, and then puts the bytes in order (R43, R46). -/
theorem writeBlock_eq (m : Memory) (a : Nat) (bs : List Byte) :
    m.writeBlock a bs = if bs = [] ∨ a + bs.length ≤ Config.memSize then some (m.putAll a bs) else none := by
  induction bs generalizing m a with
  | nil => simp [writeBlock, putAll]
  | cons b bs ih =>
    rw [writeBlock, write]
    by_cases h : a < Config.memSize
    · simp only [if_pos h, ih, putAll]
      have e : (bs = [] ∨ a + 1 + bs.length ≤ Config.memSize) ↔ (b :: bs = [] ∨ a + (b :: bs).length ≤ Config.memSize) := by
        rcases bs with _ | ⟨b', bs⟩
        · simp; omega
        · simp; omega
      simp only [e]
    · have h3 : ¬ (b :: bs = [] ∨ a + (b :: bs).length ≤ Config.memSize) := by simp; omega
      simp only [if_neg h, if_neg h3]

/-- A block write keeps the canonical form. -/
theorem writeBlock_wf {m m' : Memory} (hm : m.wf) {a : Nat} {bs : List Byte} (h : m.writeBlock a bs = some m') : m'.wf := by
  rw [writeBlock_eq] at h
  split at h
  · cases h
    rename_i hb
    rcases hb with rfl | hb
    · exact hm
    · exact putAll_wf hm _ _ hb
  · cases h

/-- A byte write keeps the canonical form. -/
theorem write_wf {m m' : Memory} (hm : m.wf) {a : Nat} {b : Byte} (h : m.write a b = some m') : m'.wf := by
  obtain ⟨ha, rfl⟩ := write_eq_some_iff.1 h
  exact put_wf hm ha b

/-- A cell that is listed reads as listed. -/
theorem byteAt_of_mem {m : Memory} (hm : m.Pairwise (fun c d => c.1 < d.1)) {a : Nat} {b : Byte} (h : (a, b) ∈ m) :
    m.byteAt a = b := by
  induction m with
  | nil => cases h
  | cons x m ih =>
    obtain ⟨a', b'⟩ := x
    have hlt := (List.pairwise_cons.1 hm).1
    rcases List.mem_cons.1 h with e | h
    · cases e; simp [byteAt]
    · have : a' < a := hlt _ h
      have h2 : a ≠ a' := by omega
      simp only [byteAt, if_neg h2]
      exact ih (List.pairwise_cons.1 hm).2 h

/-- A cell that is not listed reads as the initial byte. -/
theorem byteAt_of_absent {m : Memory} {a : Nat} (h : ∀ b, (a, b) ∉ m) : m.byteAt a = initialByte a := by
  induction m with
  | nil => rfl
  | cons x m ih =>
    obtain ⟨a', b'⟩ := x
    have h2 : a ≠ a' := fun e => h b' (by simp [e])
    simp only [byteAt, if_neg h2]
    exact ih fun b hb => h b (List.mem_cons_of_mem _ hb)

end Sys2Proof.Machine.Memory
end

