-- ==== Sys2Proof/Laws/State.lean ====
section
/-! SUPPORT. The state's updates, field by field: what each named update leaves in each field. Every lemma is true by unfolding
one update, so that no later proof unfolds a record. -/

namespace Sys2Proof.Machine

namespace State

variable (s : State)

/-! ### `V[r] <- b` (R11) -/

@[simp] theorem setReg_mem (r : RegNum) (b : Byte) : (s.setReg r b).mem = s.mem := rfl
@[simp] theorem setReg_v (r : RegNum) (b : Byte) : (s.setReg r b).v = s.v.set r.toNat b r.isLt := rfl
@[simp] theorem setReg_i (r : RegNum) (b : Byte) : (s.setReg r b).i = s.i := rfl
@[simp] theorem setReg_pc (r : RegNum) (b : Byte) : (s.setReg r b).pc = s.pc := rfl
@[simp] theorem setReg_stack (r : RegNum) (b : Byte) : (s.setReg r b).stack = s.stack := rfl
@[simp] theorem setReg_sp (r : RegNum) (b : Byte) : (s.setReg r b).sp = s.sp := rfl
@[simp] theorem setReg_disp (r : RegNum) (b : Byte) : (s.setReg r b).disp = s.disp := rfl
@[simp] theorem setReg_dt (r : RegNum) (b : Byte) : (s.setReg r b).dt = s.dt := rfl
@[simp] theorem setReg_st (r : RegNum) (b : Byte) : (s.setReg r b).st = s.st := rfl
@[simp] theorem setReg_keys (r : RegNum) (b : Byte) : (s.setReg r b).keys = s.keys := rfl
@[simp] theorem setReg_wait (r : RegNum) (b : Byte) : (s.setReg r b).wait = s.wait := rfl
@[simp] theorem setReg_qShift (r : RegNum) (b : Byte) : (s.setReg r b).qShift = s.qShift := rfl
@[simp] theorem setReg_qJump (r : RegNum) (b : Byte) : (s.setReg r b).qJump = s.qJump := rfl
@[simp] theorem setReg_randPos (r : RegNum) (b : Byte) : (s.setReg r b).randPos = s.randPos := rfl

/-! ### `VF <- b` (R13) -/

@[simp] theorem setFlag_mem (b : Byte) : (s.setFlag b).mem = s.mem := rfl
@[simp] theorem setFlag_v (b : Byte) : (s.setFlag b).v = s.v.set 15 b (by decide) := rfl
@[simp] theorem setFlag_i (b : Byte) : (s.setFlag b).i = s.i := rfl
@[simp] theorem setFlag_pc (b : Byte) : (s.setFlag b).pc = s.pc := rfl
@[simp] theorem setFlag_stack (b : Byte) : (s.setFlag b).stack = s.stack := rfl
@[simp] theorem setFlag_sp (b : Byte) : (s.setFlag b).sp = s.sp := rfl
@[simp] theorem setFlag_disp (b : Byte) : (s.setFlag b).disp = s.disp := rfl
@[simp] theorem setFlag_dt (b : Byte) : (s.setFlag b).dt = s.dt := rfl
@[simp] theorem setFlag_st (b : Byte) : (s.setFlag b).st = s.st := rfl
@[simp] theorem setFlag_keys (b : Byte) : (s.setFlag b).keys = s.keys := rfl
@[simp] theorem setFlag_wait (b : Byte) : (s.setFlag b).wait = s.wait := rfl
@[simp] theorem setFlag_qShift (b : Byte) : (s.setFlag b).qShift = s.qShift := rfl
@[simp] theorem setFlag_qJump (b : Byte) : (s.setFlag b).qJump = s.qJump := rfl
@[simp] theorem setFlag_randPos (b : Byte) : (s.setFlag b).randPos = s.randPos := rfl

/-! ### `I <- w` (R15) -/

@[simp] theorem setI_mem (w : Word) : (s.setI w).mem = s.mem := rfl
@[simp] theorem setI_v (w : Word) : (s.setI w).v = s.v := rfl
@[simp] theorem setI_i (w : Word) : (s.setI w).i = w := rfl
@[simp] theorem setI_pc (w : Word) : (s.setI w).pc = s.pc := rfl
@[simp] theorem setI_stack (w : Word) : (s.setI w).stack = s.stack := rfl
@[simp] theorem setI_sp (w : Word) : (s.setI w).sp = s.sp := rfl
@[simp] theorem setI_disp (w : Word) : (s.setI w).disp = s.disp := rfl
@[simp] theorem setI_dt (w : Word) : (s.setI w).dt = s.dt := rfl
@[simp] theorem setI_st (w : Word) : (s.setI w).st = s.st := rfl
@[simp] theorem setI_keys (w : Word) : (s.setI w).keys = s.keys := rfl
@[simp] theorem setI_wait (w : Word) : (s.setI w).wait = s.wait := rfl
@[simp] theorem setI_qShift (w : Word) : (s.setI w).qShift = s.qShift := rfl
@[simp] theorem setI_qJump (w : Word) : (s.setI w).qJump = s.qJump := rfl
@[simp] theorem setI_randPos (w : Word) : (s.setI w).randPos = s.randPos := rfl
@[simp] theorem setI_reg (w : Word) (r : RegNum) : (s.setI w).reg r = s.reg r := rfl

/-! ### `DT <- b` (R24) -/

@[simp] theorem setDT_mem (b : Byte) : (s.setDT b).mem = s.mem := rfl
@[simp] theorem setDT_v (b : Byte) : (s.setDT b).v = s.v := rfl
@[simp] theorem setDT_i (b : Byte) : (s.setDT b).i = s.i := rfl
@[simp] theorem setDT_pc (b : Byte) : (s.setDT b).pc = s.pc := rfl
@[simp] theorem setDT_stack (b : Byte) : (s.setDT b).stack = s.stack := rfl
@[simp] theorem setDT_sp (b : Byte) : (s.setDT b).sp = s.sp := rfl
@[simp] theorem setDT_disp (b : Byte) : (s.setDT b).disp = s.disp := rfl
@[simp] theorem setDT_dt (b : Byte) : (s.setDT b).dt = b := rfl
@[simp] theorem setDT_st (b : Byte) : (s.setDT b).st = s.st := rfl
@[simp] theorem setDT_keys (b : Byte) : (s.setDT b).keys = s.keys := rfl
@[simp] theorem setDT_wait (b : Byte) : (s.setDT b).wait = s.wait := rfl
@[simp] theorem setDT_qShift (b : Byte) : (s.setDT b).qShift = s.qShift := rfl
@[simp] theorem setDT_qJump (b : Byte) : (s.setDT b).qJump = s.qJump := rfl
@[simp] theorem setDT_randPos (b : Byte) : (s.setDT b).randPos = s.randPos := rfl
@[simp] theorem setDT_reg (b : Byte) (r : RegNum) : (s.setDT b).reg r = s.reg r := rfl

/-! ### `ST <- b` (R25) -/

@[simp] theorem setST_mem (b : Byte) : (s.setST b).mem = s.mem := rfl
@[simp] theorem setST_v (b : Byte) : (s.setST b).v = s.v := rfl
@[simp] theorem setST_i (b : Byte) : (s.setST b).i = s.i := rfl
@[simp] theorem setST_pc (b : Byte) : (s.setST b).pc = s.pc := rfl
@[simp] theorem setST_stack (b : Byte) : (s.setST b).stack = s.stack := rfl
@[simp] theorem setST_sp (b : Byte) : (s.setST b).sp = s.sp := rfl
@[simp] theorem setST_disp (b : Byte) : (s.setST b).disp = s.disp := rfl
@[simp] theorem setST_dt (b : Byte) : (s.setST b).dt = s.dt := rfl
@[simp] theorem setST_st (b : Byte) : (s.setST b).st = b := rfl
@[simp] theorem setST_keys (b : Byte) : (s.setST b).keys = s.keys := rfl
@[simp] theorem setST_wait (b : Byte) : (s.setST b).wait = s.wait := rfl
@[simp] theorem setST_qShift (b : Byte) : (s.setST b).qShift = s.qShift := rfl
@[simp] theorem setST_qJump (b : Byte) : (s.setST b).qJump = s.qJump := rfl
@[simp] theorem setST_randPos (b : Byte) : (s.setST b).randPos = s.randPos := rfl
@[simp] theorem setST_reg (b : Byte) (r : RegNum) : (s.setST b).reg r = s.reg r := rfl

/-! ### `WAIT <- w` (R27) -/

@[simp] theorem setWait_mem (w : Option RegNum) : (s.setWait w).mem = s.mem := rfl
@[simp] theorem setWait_v (w : Option RegNum) : (s.setWait w).v = s.v := rfl
@[simp] theorem setWait_i (w : Option RegNum) : (s.setWait w).i = s.i := rfl
@[simp] theorem setWait_pc (w : Option RegNum) : (s.setWait w).pc = s.pc := rfl
@[simp] theorem setWait_stack (w : Option RegNum) : (s.setWait w).stack = s.stack := rfl
@[simp] theorem setWait_sp (w : Option RegNum) : (s.setWait w).sp = s.sp := rfl
@[simp] theorem setWait_disp (w : Option RegNum) : (s.setWait w).disp = s.disp := rfl
@[simp] theorem setWait_dt (w : Option RegNum) : (s.setWait w).dt = s.dt := rfl
@[simp] theorem setWait_st (w : Option RegNum) : (s.setWait w).st = s.st := rfl
@[simp] theorem setWait_keys (w : Option RegNum) : (s.setWait w).keys = s.keys := rfl
@[simp] theorem setWait_wait (w : Option RegNum) : (s.setWait w).wait = w := rfl
@[simp] theorem setWait_qShift (w : Option RegNum) : (s.setWait w).qShift = s.qShift := rfl
@[simp] theorem setWait_qJump (w : Option RegNum) : (s.setWait w).qJump = s.qJump := rfl
@[simp] theorem setWait_randPos (w : Option RegNum) : (s.setWait w).randPos = s.randPos := rfl
@[simp] theorem setWait_reg (w : Option RegNum) (r : RegNum) : (s.setWait w).reg r = s.reg r := rfl

/-! ### `KEYS <- k` (R26) -/

@[simp] theorem setPressed_mem (k : Word) : (s.setPressed k).mem = s.mem := rfl
@[simp] theorem setPressed_v (k : Word) : (s.setPressed k).v = s.v := rfl
@[simp] theorem setPressed_i (k : Word) : (s.setPressed k).i = s.i := rfl
@[simp] theorem setPressed_pc (k : Word) : (s.setPressed k).pc = s.pc := rfl
@[simp] theorem setPressed_stack (k : Word) : (s.setPressed k).stack = s.stack := rfl
@[simp] theorem setPressed_sp (k : Word) : (s.setPressed k).sp = s.sp := rfl
@[simp] theorem setPressed_disp (k : Word) : (s.setPressed k).disp = s.disp := rfl
@[simp] theorem setPressed_dt (k : Word) : (s.setPressed k).dt = s.dt := rfl
@[simp] theorem setPressed_st (k : Word) : (s.setPressed k).st = s.st := rfl
@[simp] theorem setPressed_keys (k : Word) : (s.setPressed k).keys = k := rfl
@[simp] theorem setPressed_wait (k : Word) : (s.setPressed k).wait = s.wait := rfl
@[simp] theorem setPressed_qShift (k : Word) : (s.setPressed k).qShift = s.qShift := rfl
@[simp] theorem setPressed_qJump (k : Word) : (s.setPressed k).qJump = s.qJump := rfl
@[simp] theorem setPressed_randPos (k : Word) : (s.setPressed k).randPos = s.randPos := rfl
@[simp] theorem setPressed_reg (k : Word) (r : RegNum) : (s.setPressed k).reg r = s.reg r := rfl

/-! ### memory replaced -/

@[simp] theorem setMem_mem (m : Memory) : (s.setMem m).mem = m := rfl
@[simp] theorem setMem_v (m : Memory) : (s.setMem m).v = s.v := rfl
@[simp] theorem setMem_i (m : Memory) : (s.setMem m).i = s.i := rfl
@[simp] theorem setMem_pc (m : Memory) : (s.setMem m).pc = s.pc := rfl
@[simp] theorem setMem_stack (m : Memory) : (s.setMem m).stack = s.stack := rfl
@[simp] theorem setMem_sp (m : Memory) : (s.setMem m).sp = s.sp := rfl
@[simp] theorem setMem_disp (m : Memory) : (s.setMem m).disp = s.disp := rfl
@[simp] theorem setMem_dt (m : Memory) : (s.setMem m).dt = s.dt := rfl
@[simp] theorem setMem_st (m : Memory) : (s.setMem m).st = s.st := rfl
@[simp] theorem setMem_keys (m : Memory) : (s.setMem m).keys = s.keys := rfl
@[simp] theorem setMem_wait (m : Memory) : (s.setMem m).wait = s.wait := rfl
@[simp] theorem setMem_qShift (m : Memory) : (s.setMem m).qShift = s.qShift := rfl
@[simp] theorem setMem_qJump (m : Memory) : (s.setMem m).qJump = s.qJump := rfl
@[simp] theorem setMem_randPos (m : Memory) : (s.setMem m).randPos = s.randPos := rfl
@[simp] theorem setMem_reg (m : Memory) (r : RegNum) : (s.setMem m).reg r = s.reg r := rfl

/-! ### display replaced -/

@[simp] theorem setDisp_mem (d : Display) : (s.setDisp d).mem = s.mem := rfl
@[simp] theorem setDisp_v (d : Display) : (s.setDisp d).v = s.v := rfl
@[simp] theorem setDisp_i (d : Display) : (s.setDisp d).i = s.i := rfl
@[simp] theorem setDisp_pc (d : Display) : (s.setDisp d).pc = s.pc := rfl
@[simp] theorem setDisp_stack (d : Display) : (s.setDisp d).stack = s.stack := rfl
@[simp] theorem setDisp_sp (d : Display) : (s.setDisp d).sp = s.sp := rfl
@[simp] theorem setDisp_disp (d : Display) : (s.setDisp d).disp = d := rfl
@[simp] theorem setDisp_dt (d : Display) : (s.setDisp d).dt = s.dt := rfl
@[simp] theorem setDisp_st (d : Display) : (s.setDisp d).st = s.st := rfl
@[simp] theorem setDisp_keys (d : Display) : (s.setDisp d).keys = s.keys := rfl
@[simp] theorem setDisp_wait (d : Display) : (s.setDisp d).wait = s.wait := rfl
@[simp] theorem setDisp_qShift (d : Display) : (s.setDisp d).qShift = s.qShift := rfl
@[simp] theorem setDisp_qJump (d : Display) : (s.setDisp d).qJump = s.qJump := rfl
@[simp] theorem setDisp_randPos (d : Display) : (s.setDisp d).randPos = s.randPos := rfl
@[simp] theorem setDisp_reg (d : Display) (r : RegNum) : (s.setDisp d).reg r = s.reg r := rfl

/-! ### `PC <- t` (R16) -/

@[simp] theorem jumpTo_mem (t : Word) : (s.jumpTo t).mem = s.mem := rfl
@[simp] theorem jumpTo_v (t : Word) : (s.jumpTo t).v = s.v := rfl
@[simp] theorem jumpTo_i (t : Word) : (s.jumpTo t).i = s.i := rfl
@[simp] theorem jumpTo_pc (t : Word) : (s.jumpTo t).pc = t := rfl
@[simp] theorem jumpTo_stack (t : Word) : (s.jumpTo t).stack = s.stack := rfl
@[simp] theorem jumpTo_sp (t : Word) : (s.jumpTo t).sp = s.sp := rfl
@[simp] theorem jumpTo_disp (t : Word) : (s.jumpTo t).disp = s.disp := rfl
@[simp] theorem jumpTo_dt (t : Word) : (s.jumpTo t).dt = s.dt := rfl
@[simp] theorem jumpTo_st (t : Word) : (s.jumpTo t).st = s.st := rfl
@[simp] theorem jumpTo_keys (t : Word) : (s.jumpTo t).keys = s.keys := rfl
@[simp] theorem jumpTo_wait (t : Word) : (s.jumpTo t).wait = s.wait := rfl
@[simp] theorem jumpTo_qShift (t : Word) : (s.jumpTo t).qShift = s.qShift := rfl
@[simp] theorem jumpTo_qJump (t : Word) : (s.jumpTo t).qJump = s.qJump := rfl
@[simp] theorem jumpTo_randPos (t : Word) : (s.jumpTo t).randPos = s.randPos := rfl
@[simp] theorem jumpTo_reg (t : Word) (r : RegNum) : (s.jumpTo t).reg r = s.reg r := rfl

/-! ### `PC <- PC + 2` (R16) -/

@[simp] theorem advance_mem : (s.advance).mem = s.mem := rfl
@[simp] theorem advance_v : (s.advance).v = s.v := rfl
@[simp] theorem advance_i : (s.advance).i = s.i := rfl
@[simp] theorem advance_pc : (s.advance).pc = s.pc + 2#16 := rfl
@[simp] theorem advance_stack : (s.advance).stack = s.stack := rfl
@[simp] theorem advance_sp : (s.advance).sp = s.sp := rfl
@[simp] theorem advance_disp : (s.advance).disp = s.disp := rfl
@[simp] theorem advance_dt : (s.advance).dt = s.dt := rfl
@[simp] theorem advance_st : (s.advance).st = s.st := rfl
@[simp] theorem advance_keys : (s.advance).keys = s.keys := rfl
@[simp] theorem advance_wait : (s.advance).wait = s.wait := rfl
@[simp] theorem advance_qShift : (s.advance).qShift = s.qShift := rfl
@[simp] theorem advance_qJump : (s.advance).qJump = s.qJump := rfl
@[simp] theorem advance_randPos : (s.advance).randPos = s.randPos := rfl
@[simp] theorem advance_reg (r : RegNum) : (s.advance).reg r = s.reg r := rfl

/-! ### `draw_byte()` (R88) -/

@[simp] theorem drawByte_fst : s.drawByte.1 = Config.randByte s.randPos := rfl
/-- A draw leaves the whole state record (R30, R88). -/
@[simp] theorem drawByte_toRecord : s.drawByte.2.toRecord = s.toRecord := rfl
@[simp] theorem drawByte_mem : s.drawByte.2.mem = s.mem := rfl
@[simp] theorem drawByte_v : s.drawByte.2.v = s.v := rfl
@[simp] theorem drawByte_i : s.drawByte.2.i = s.i := rfl
@[simp] theorem drawByte_pc : s.drawByte.2.pc = s.pc := rfl
@[simp] theorem drawByte_stack : s.drawByte.2.stack = s.stack := rfl
@[simp] theorem drawByte_sp : s.drawByte.2.sp = s.sp := rfl
@[simp] theorem drawByte_disp : s.drawByte.2.disp = s.disp := rfl
@[simp] theorem drawByte_dt : s.drawByte.2.dt = s.dt := rfl
@[simp] theorem drawByte_st : s.drawByte.2.st = s.st := rfl
@[simp] theorem drawByte_keys : s.drawByte.2.keys = s.keys := rfl
@[simp] theorem drawByte_wait : s.drawByte.2.wait = s.wait := rfl
@[simp] theorem drawByte_qShift : s.drawByte.2.qShift = s.qShift := rfl
@[simp] theorem drawByte_qJump : s.drawByte.2.qJump = s.qJump := rfl
@[simp] theorem drawByte_randPos : s.drawByte.2.randPos = s.randPos + 1 := rfl
@[simp] theorem drawByte_reg (r : RegNum) : s.drawByte.2.reg r = s.reg r := rfl

/-! ### `PC <- PC + 4` or `PC + 2` (R16) -/

/-- A skip is a jump past one instruction or two. -/
theorem skipIf_eq (c : Bool) : s.skipIf c = s.jumpTo (if c then s.pc + 4#16 else s.pc + 2#16) := by cases c <;> rfl
@[simp] theorem skipIf_mem (c : Bool) : (s.skipIf c).mem = s.mem := by cases c <;> rfl
@[simp] theorem skipIf_v (c : Bool) : (s.skipIf c).v = s.v := by cases c <;> rfl
@[simp] theorem skipIf_i (c : Bool) : (s.skipIf c).i = s.i := by cases c <;> rfl
@[simp] theorem skipIf_pc (c : Bool) : (s.skipIf c).pc = s.pc + (if c then 4#16 else 2#16) := by cases c <;> rfl
@[simp] theorem skipIf_stack (c : Bool) : (s.skipIf c).stack = s.stack := by cases c <;> rfl
@[simp] theorem skipIf_sp (c : Bool) : (s.skipIf c).sp = s.sp := by cases c <;> rfl
@[simp] theorem skipIf_disp (c : Bool) : (s.skipIf c).disp = s.disp := by cases c <;> rfl
@[simp] theorem skipIf_dt (c : Bool) : (s.skipIf c).dt = s.dt := by cases c <;> rfl
@[simp] theorem skipIf_st (c : Bool) : (s.skipIf c).st = s.st := by cases c <;> rfl
@[simp] theorem skipIf_keys (c : Bool) : (s.skipIf c).keys = s.keys := by cases c <;> rfl
@[simp] theorem skipIf_wait (c : Bool) : (s.skipIf c).wait = s.wait := by cases c <;> rfl
@[simp] theorem skipIf_qShift (c : Bool) : (s.skipIf c).qShift = s.qShift := by cases c <;> rfl
@[simp] theorem skipIf_qJump (c : Bool) : (s.skipIf c).qJump = s.qJump := by cases c <;> rfl
@[simp] theorem skipIf_randPos (c : Bool) : (s.skipIf c).randPos = s.randPos := by cases c <;> rfl
@[simp] theorem skipIf_reg (c : Bool) (r : RegNum) : (s.skipIf c).reg r = s.reg r := by cases c <;> rfl

/-! ### Reading a register after a write (R11, R13) -/

/-- A register write changes the register it names and no other. -/
@[simp] theorem reg_setReg (r q : RegNum) (b : Byte) : (s.setReg r b).reg q = if q = r then b else s.reg q := by
  simp only [reg, setReg, Vector.getElem_set]
  by_cases h : q = r
  · simp [h]
  · have : r.toNat ≠ q.toNat := fun e => h (BitVec.eq_of_toNat_eq e.symm)
    simp [h, this]

/-- The flag write is the write of `V[0xF]`. -/
@[simp] theorem reg_setFlag (q : RegNum) (b : Byte) : (s.setFlag b).reg q = if q = 0xF#4 then b else s.reg q := reg_setReg s _ _ _

/-- Two register files that read alike are equal. -/
theorem v_ext {s t : State} (h : ∀ r, s.reg r = t.reg r) : s.v = t.v := by
  apply Vector.ext
  intro k hk
  have := h (BitVec.ofNat 4 k)
  simpa [reg, Nat.mod_eq_of_lt hk] using this

/-! ### The register loop of LoadRegisters (R145) -/

/-- A block write of registers changes no field but the registers. -/
theorem setRegs_eq (k : Nat) (bs : List Byte) : ∃ v, s.setRegs k bs = { s with v := v } := by
  induction bs generalizing s k with
  | nil => exact ⟨s.v, rfl⟩
  | cons b bs ih =>
    obtain ⟨v, hv⟩ := ih (s.setReg (BitVec.ofNat 4 k) b) (k + 1)
    exact ⟨v, hv⟩

@[simp] theorem setRegs_mem (k : Nat) (bs : List Byte) : (s.setRegs k bs).mem = s.mem := by
  obtain ⟨_, h⟩ := s.setRegs_eq k bs; rw [h]
@[simp] theorem setRegs_i (k : Nat) (bs : List Byte) : (s.setRegs k bs).i = s.i := by
  obtain ⟨_, h⟩ := s.setRegs_eq k bs; rw [h]
@[simp] theorem setRegs_pc (k : Nat) (bs : List Byte) : (s.setRegs k bs).pc = s.pc := by
  obtain ⟨_, h⟩ := s.setRegs_eq k bs; rw [h]
@[simp] theorem setRegs_stack (k : Nat) (bs : List Byte) : (s.setRegs k bs).stack = s.stack := by
  obtain ⟨_, h⟩ := s.setRegs_eq k bs; rw [h]
@[simp] theorem setRegs_sp (k : Nat) (bs : List Byte) : (s.setRegs k bs).sp = s.sp := by
  obtain ⟨_, h⟩ := s.setRegs_eq k bs; rw [h]
@[simp] theorem setRegs_disp (k : Nat) (bs : List Byte) : (s.setRegs k bs).disp = s.disp := by
  obtain ⟨_, h⟩ := s.setRegs_eq k bs; rw [h]
@[simp] theorem setRegs_dt (k : Nat) (bs : List Byte) : (s.setRegs k bs).dt = s.dt := by
  obtain ⟨_, h⟩ := s.setRegs_eq k bs; rw [h]
@[simp] theorem setRegs_st (k : Nat) (bs : List Byte) : (s.setRegs k bs).st = s.st := by
  obtain ⟨_, h⟩ := s.setRegs_eq k bs; rw [h]
@[simp] theorem setRegs_keys (k : Nat) (bs : List Byte) : (s.setRegs k bs).keys = s.keys := by
  obtain ⟨_, h⟩ := s.setRegs_eq k bs; rw [h]
@[simp] theorem setRegs_wait (k : Nat) (bs : List Byte) : (s.setRegs k bs).wait = s.wait := by
  obtain ⟨_, h⟩ := s.setRegs_eq k bs; rw [h]
@[simp] theorem setRegs_qShift (k : Nat) (bs : List Byte) : (s.setRegs k bs).qShift = s.qShift := by
  obtain ⟨_, h⟩ := s.setRegs_eq k bs; rw [h]
@[simp] theorem setRegs_qJump (k : Nat) (bs : List Byte) : (s.setRegs k bs).qJump = s.qJump := by
  obtain ⟨_, h⟩ := s.setRegs_eq k bs; rw [h]
@[simp] theorem setRegs_randPos (k : Nat) (bs : List Byte) : (s.setRegs k bs).randPos = s.randPos := by
  obtain ⟨_, h⟩ := s.setRegs_eq k bs; rw [h]

/-- What a block write of registers leaves in each register: `V[k]` to `V[k + length - 1]` hold the bytes in order. -/
theorem reg_setRegs (k : Nat) (bs : List Byte) (h : k + bs.length ≤ 16) (q : RegNum) :
    (s.setRegs k bs).reg q = if k ≤ q.toNat then (bs[q.toNat - k]?).getD (s.reg q) else s.reg q := by
  induction bs generalizing s k with
  | nil => simp [setRegs]
  | cons b bs ih =>
    have hk : k < 16 := by simp only [List.length_cons] at h; omega
    rw [setRegs, ih _ _ (by simp only [List.length_cons] at h; omega)]
    have hq : q = BitVec.ofNat 4 k ↔ q.toNat = k := by
      constructor
      · intro e; rw [e]; simp; omega
      · intro e; apply BitVec.eq_of_toNat_eq; simp; omega
    by_cases h1 : q.toNat = k
    · have : ¬ (k + 1 ≤ q.toNat) := by omega
      simp [h1, hq]
    · by_cases h2 : k ≤ q.toNat
      · have e : q.toNat - k = (q.toNat - (k + 1)) + 1 := by omega
        have h3 : k + 1 ≤ q.toNat := by omega
        simp [h2, h3, hq, h1, e]
      · have h3 : ¬ (k + 1 ≤ q.toNat) := by omega
        simp [h2, h3, hq, h1]

end State

end Sys2Proof.Machine
end

