-- ==== Sys2Proof/Laws/Machine.lean ====
section
/-! SUPPORT. One lemma per shared operation of the machine: what Push, Pop, the fetch and a store at `I` can do, which cases a
cycle has, and what the two timers do at a tick. Later proofs cite these instead of unfolding. -/

namespace Sys2Proof.Machine

/-! ### Call stack (R20, R21) -/

/-- All that Push can do (R20). -/
theorem push_eq_some {s t : State} {w : Word} (h : s.push w = some t) :
    ∃ (hs : s.sp.val < 16), t = { s with stack := s.stack.set s.sp.val w hs, sp := ⟨s.sp.val + 1, Nat.succ_lt_succ hs⟩ } := by
  unfold State.push at h
  split at h
  · exact ⟨by assumption, by cases h; rfl⟩
  · cases h

/-- Push fails exactly on a full stack (R20). -/
theorem push_eq_none {s : State} {w : Word} : s.push w = none ↔ s.sp.val = 16 := by
  have hs : s.sp.val < 17 := s.sp.isLt
  by_cases h : s.sp.val < 16
  · simp only [State.push, dif_pos h, reduceCtorEq, false_iff]; omega
  · simp only [State.push, dif_neg h, true_iff]; omega

/-- Push answers on a stack that is not full (R20). -/
theorem push_of_lt {s : State} {w : Word} (hs : s.sp.val < 16) :
    s.push w = some { s with stack := s.stack.set s.sp.val w hs, sp := ⟨s.sp.val + 1, Nat.succ_lt_succ hs⟩ } := dif_pos hs

/-- All that Pop can do (R21). -/
theorem pop_eq_some {s t : State} {w : Word} (h : s.pop = some (w, t)) :
    ∃ (_ : 0 < s.sp.val) (hb : s.sp.val - 1 < 16),
      w = s.stack[s.sp.val - 1] ∧ t = { s with sp := ⟨s.sp.val - 1, Nat.lt_succ_of_lt hb⟩ } := by
  unfold State.pop at h
  split at h
  · have hs : s.sp.val < 17 := s.sp.isLt
    refine ⟨by assumption, by omega, ?_⟩
    simp only [Option.some.injEq, Prod.mk.injEq] at h
    exact ⟨h.1.symm, h.2.symm⟩
  · cases h

/-- Pop fails exactly on an empty stack (R21). -/
theorem pop_eq_none {s : State} : s.pop = none ↔ s.sp.val = 0 := by
  by_cases h : 0 < s.sp.val
  · simp only [State.pop, dif_pos h, reduceCtorEq, false_iff]; omega
  · simp only [State.pop, dif_neg h, true_iff]; omega

/-- Pop answers on a stack that is not empty (R21). -/
theorem pop_of_pos {s : State} (h : 0 < s.sp.val) (hb : s.sp.val - 1 < 16) :
    s.pop = some (s.stack[s.sp.val - 1], { s with sp := ⟨s.sp.val - 1, Nat.lt_succ_of_lt hb⟩ }) := dif_pos h

/-! ### Fetch (R45, R47) -/

/-- A fetch answers exactly from `PC` up to 0xFFE, with the byte at `PC` high (R45, R47). -/
theorem fetch_eq (s : State) :
    fetch s = if s.pc.toNat ≤ 0xFFE then
      some (wordOfBytes (s.mem.byteAt s.pc.toNat) (s.mem.byteAt (s.pc.toNat + 1))) else none := by
  unfold fetch
  by_cases h : s.pc.toNat ≤ 0xFFE
  · rw [Memory.read_of_lt (by show _ < 4096; omega), Memory.read_of_lt (by show _ < 4096; omega), if_pos h]
  · rw [if_neg h]
    by_cases h2 : s.pc.toNat < 4096
    · rw [Memory.read_of_lt h2, Memory.read_of_ge (by show 4096 ≤ _; omega)]
    · rw [Memory.read_of_ge (by show 4096 ≤ _; omega)]

/-- A fetch answers exactly up to 0xFFE (R45). -/
theorem fetch_eq_none {s : State} : fetch s = none ↔ 0xFFE < s.pc.toNat := by
  rw [fetch_eq]
  split <;> simp <;> omega

/-! ### A cycle (R81 to R83) -/

/-- A suspended cycle (R82). -/
theorem cycle_suspended {s : State} {x : RegNum} (h : s.wait = some x) : cycle s = .next s := by
  unfold cycle; rw [h]

/-- A running cycle whose fetch fails (R81). -/
theorem cycle_fetch_none {s : State} (h : s.wait = none) (hf : fetch s = none) : cycle s = .fault .memoryOutOfBounds := by
  unfold cycle; rw [h, hf]; rfl

/-- A running cycle whose word is decoded (R81). -/
theorem cycle_decoded {s : State} {raw : Word} {i : Instr} (h : s.wait = none) (hf : fetch s = some raw)
    (hd : decode raw = .ok i) : cycle s = exec i s := by
  unfold cycle; rw [h, hf]; simp only [runWord, hd]

/-- A running cycle whose word is rejected (R81). -/
theorem cycle_rejected {s : State} {raw : Word} {e : DecodeError} (h : s.wait = none) (hf : fetch s = some raw)
    (hd : decode raw = .error e) : cycle s = .fault (decodeFault e) := by
  unfold cycle; rw [h, hf]; simp only [runWord, hd, raise]

/-- All that a step can be: an empty step while suspended, a failed fetch, a rejected word, or the instruction (R81 to R83). -/
theorem step_cases (s : State) :
    (∃ x, s.wait = some x ∧ step s = .next s) ∨
    (s.wait = none ∧ fetch s = none ∧ step s = .fault .memoryOutOfBounds) ∨
    (∃ raw e, s.wait = none ∧ fetch s = some raw ∧ decode raw = .error e ∧ step s = .fault (decodeFault e)) ∨
    (∃ raw i, s.wait = none ∧ fetch s = some raw ∧ decode raw = .ok i ∧ step s = exec i s) := by
  rcases hw : s.wait with _ | x
  · rcases hf : fetch s with _ | raw
    · exact .inr (.inl ⟨rfl, rfl, cycle_fetch_none hw hf⟩)
    · rcases hd : decode raw with e | i
      · exact .inr (.inr (.inl ⟨raw, e, rfl, rfl, hd, cycle_rejected hw hf hd⟩))
      · exact .inr (.inr (.inr ⟨raw, i, rfl, rfl, hd, cycle_decoded hw hf hd⟩))
  · exact .inl ⟨x, rfl, cycle_suspended hw⟩

/-! ### A store at `I`, a load at `I` (R46, R146) -/

/-- All that a store of bytes at `I` can do (R46). -/
theorem storeAtI_eq (bs : List Byte) (s : State) :
    storeAtI bs s = if bs = [] ∨ s.i.toNat + bs.length ≤ 4096 then
      .next (s.setMem (s.mem.putAll s.i.toNat bs)).advance else .fault .memoryOutOfBounds := by
  unfold storeAtI
  simp only [Memory.writeBlock_eq, effAddr, Nat.add_zero]
  by_cases h : bs = [] ∨ s.i.toNat + bs.length ≤ 4096
  · simp only [if_pos h]
  · simp only [if_neg h, raise]

/-- The block of registers that StoreRegisters stores has `x + 1` bytes (R144). -/
@[simp] theorem length_regBlock (x : RegNum) (s : State) : (regBlock x s).length = x.toNat + 1 := by
  have : x.toNat < 16 := x.isLt
  simp [regBlock, blockLength]
  omega

/-- The bytes of the block of registers are `V[0]` to `V[x]` in order (R144). -/
theorem getElem?_regBlock (x r : RegNum) (s : State) (h : r.toNat ≤ x.toNat) : (regBlock x s)[r.toNat]? = some (s.reg r) := by
  have hr : r.toNat < 16 := r.isLt
  rw [regBlock, blockLength, List.getElem?_take_of_lt (by omega)]
  rw [List.getElem?_eq_getElem (by simpa using hr)]
  simp [State.reg]

/-! ### `tick` (R184) -/

/-- A countdown by one stops at zero (R184). -/
theorem tick_dt (s : State) : (tick s).dt.toNat = s.dt.toNat - 1 := by
  unfold tick
  have hd := s.dt.isLt
  by_cases h : s.dt.toNat > 0
  · by_cases h2 : s.st.toNat > 0
    · simp [h, h2]; omega
    · simp [h, h2]; omega
  · by_cases h2 : s.st.toNat > 0
    · simp [h, h2]; omega
    · simp [h, h2]; omega

/-- A countdown by one stops at zero (R184). -/
theorem tick_st (s : State) : (tick s).st.toNat = s.st.toNat - 1 := by
  unfold tick
  have hd := s.st.isLt
  by_cases h : s.dt.toNat > 0
  · by_cases h2 : s.st.toNat > 0
    · simp [h, h2]; omega
    · simp [h, h2]; omega
  · by_cases h2 : s.st.toNat > 0
    · simp [h, h2]; omega
    · simp [h, h2]; omega

/-- A tick changes the two timers and nothing else (R184). -/
theorem tick_eq (s : State) : ∃ d e, tick s = { s with dt := d, st := e } := by
  unfold tick
  by_cases h : s.dt.toNat > 0
  · by_cases h2 : s.st.toNat > 0
    · exact ⟨s.dt - 1#8, s.st - 1#8, by simp [h, h2]; rfl⟩
    · exact ⟨s.dt - 1#8, s.st, by simp [h, h2]; rfl⟩
  · by_cases h2 : s.st.toNat > 0
    · exact ⟨s.dt, s.st - 1#8, by simp [h, h2]; rfl⟩
    · exact ⟨s.dt, s.st, by simp [h, h2]⟩

end Sys2Proof.Machine
end

