-- ==== Sys2Proof/Laws/PerInstr.lean ====
section
/-! SUPPORT. Per-instruction statements. Family `EncodesInItsRow`: the word of a well-formed instruction selects the row of the
opcode map that bears the instruction's mnemonic (30_encoding.md R66). -/

namespace Sys2Proof.Laws.EncodesInItsRow

/-- The instruction's word selects a row of the opcode map with the instruction's own mnemonic (R66). -/
def Statement (i : Instr) : Prop :=
  i.WellFormed → ∃ row ∈ opcodeMap, row.mnemonic = i.mnemonic ∧ row.Selects (encode i)

/-- A row of the map that the word selects, found by its index. -/
theorem of_row {i : Instr} (k : Nat) (row : OpcodeRow) (hr : opcodeMap[k]? = some row) (hm : row.mnemonic = i.mnemonic)
    (hb : encode i &&& row.mask = row.bits) (he : row.except = []) : Statement i :=
  fun _ => ⟨row, List.mem_of_getElem? hr, hm, hb, by simp [he]⟩

theorem clearScreen : Statement Instr.clearScreen :=
  of_row 0 ⟨"ClearScreen", 0x00E0, 0xFFFF, []⟩ rfl rfl (rfl) rfl

theorem ret : Statement Instr.ret :=
  of_row 1 ⟨"Return", 0x00EE, 0xFFFF, []⟩ rfl rfl (rfl) rfl

theorem nativeCall (nnn : Imm12) : Statement (Instr.nativeCall nnn) := by
  intro hw
  refine ⟨⟨"NativeCall", 0x0000, 0xF000, [0x00E0, 0x00EE]⟩, List.mem_of_getElem? (i := 2) rfl, rfl, packNNN_and _ _, ?_⟩
  simp only [Instr.WellFormed, Instr.wellFormed, Bool.and_eq_true, bne_iff_ne] at hw
  simp only [List.mem_cons, List.not_mem_nil, or_false, not_or]
  refine ⟨fun e => hw.1 ?_, fun e => hw.2 ?_⟩
  · have := congrArg fieldNNN e; rw [encode, fieldNNN_packNNN] at this; rw [this]; rfl
  · have := congrArg fieldNNN e; rw [encode, fieldNNN_packNNN] at this; rw [this]; rfl

theorem jump (nnn : Imm12) : Statement (Instr.jump nnn) :=
  of_row 3 ⟨"Jump", 0x1000, 0xF000, []⟩ rfl rfl (packNNN_and _ _) rfl

theorem call (nnn : Imm12) : Statement (Instr.call nnn) :=
  of_row 4 ⟨"Call", 0x2000, 0xF000, []⟩ rfl rfl (packNNN_and _ _) rfl

theorem skipEqImm (x : RegNum) (kk : Byte) : Statement (Instr.skipEqImm x kk) :=
  of_row 5 ⟨"SkipEqImm", 0x3000, 0xF000, []⟩ rfl rfl (packXKK_andF000 _ _ _) rfl

theorem skipNeqImm (x : RegNum) (kk : Byte) : Statement (Instr.skipNeqImm x kk) :=
  of_row 6 ⟨"SkipNeqImm", 0x4000, 0xF000, []⟩ rfl rfl (packXKK_andF000 _ _ _) rfl

theorem skipEqReg (x y : RegNum) : Statement (Instr.skipEqReg x y) :=
  of_row 7 ⟨"SkipEqReg", 0x5000, 0xF00F, []⟩ rfl rfl (packXYN_andF00F _ _ _ _) rfl

theorem loadImm (x : RegNum) (kk : Byte) : Statement (Instr.loadImm x kk) :=
  of_row 8 ⟨"LoadImm", 0x6000, 0xF000, []⟩ rfl rfl (packXKK_andF000 _ _ _) rfl

theorem addImm (x : RegNum) (kk : Byte) : Statement (Instr.addImm x kk) :=
  of_row 9 ⟨"AddImm", 0x7000, 0xF000, []⟩ rfl rfl (packXKK_andF000 _ _ _) rfl

theorem move (x y : RegNum) : Statement (Instr.move x y) :=
  of_row 10 ⟨"Move", 0x8000, 0xF00F, []⟩ rfl rfl (packXYN_andF00F _ _ _ _) rfl

theorem or (x y : RegNum) : Statement (Instr.or x y) :=
  of_row 11 ⟨"Or", 0x8001, 0xF00F, []⟩ rfl rfl (packXYN_andF00F _ _ _ _) rfl

theorem and (x y : RegNum) : Statement (Instr.and x y) :=
  of_row 12 ⟨"And", 0x8002, 0xF00F, []⟩ rfl rfl (packXYN_andF00F _ _ _ _) rfl

theorem xor (x y : RegNum) : Statement (Instr.xor x y) :=
  of_row 13 ⟨"Xor", 0x8003, 0xF00F, []⟩ rfl rfl (packXYN_andF00F _ _ _ _) rfl

theorem addReg (x y : RegNum) : Statement (Instr.addReg x y) :=
  of_row 14 ⟨"AddReg", 0x8004, 0xF00F, []⟩ rfl rfl (packXYN_andF00F _ _ _ _) rfl

theorem subReg (x y : RegNum) : Statement (Instr.subReg x y) :=
  of_row 15 ⟨"SubReg", 0x8005, 0xF00F, []⟩ rfl rfl (packXYN_andF00F _ _ _ _) rfl

theorem shiftRight (x y : RegNum) : Statement (Instr.shiftRight x y) :=
  of_row 16 ⟨"ShiftRight", 0x8006, 0xF00F, []⟩ rfl rfl (packXYN_andF00F _ _ _ _) rfl

theorem subnReg (x y : RegNum) : Statement (Instr.subnReg x y) :=
  of_row 17 ⟨"SubnReg", 0x8007, 0xF00F, []⟩ rfl rfl (packXYN_andF00F _ _ _ _) rfl

theorem shiftLeft (x y : RegNum) : Statement (Instr.shiftLeft x y) :=
  of_row 18 ⟨"ShiftLeft", 0x800E, 0xF00F, []⟩ rfl rfl (packXYN_andF00F _ _ _ _) rfl

theorem skipNeqReg (x y : RegNum) : Statement (Instr.skipNeqReg x y) :=
  of_row 19 ⟨"SkipNeqReg", 0x9000, 0xF00F, []⟩ rfl rfl (packXYN_andF00F _ _ _ _) rfl

theorem loadIndex (nnn : Imm12) : Statement (Instr.loadIndex nnn) :=
  of_row 20 ⟨"LoadIndex", 0xA000, 0xF000, []⟩ rfl rfl (packNNN_and _ _) rfl

theorem jumpOffset (nnn : Imm12) (x : RegNum) : Statement (Instr.jumpOffset nnn x) :=
  of_row 21 ⟨"JumpOffset", 0xB000, 0xF000, []⟩ rfl rfl (packNNN_and _ _) rfl

theorem random (x : RegNum) (kk : Byte) : Statement (Instr.random x kk) :=
  of_row 22 ⟨"Random", 0xC000, 0xF000, []⟩ rfl rfl (packXKK_andF000 _ _ _) rfl

theorem draw (x y : RegNum) (n : Nibble) : Statement (Instr.draw x y n) :=
  of_row 23 ⟨"Draw", 0xD000, 0xF000, []⟩ rfl rfl (packXYN_andF000 _ _ _ _) rfl

theorem skipIfKeyDown (x : RegNum) : Statement (Instr.skipIfKeyDown x) :=
  of_row 24 ⟨"SkipIfKeyDown", 0xE09E, 0xF0FF, []⟩ rfl rfl (packXKK_andF0FF _ _ _) rfl

theorem skipIfKeyUp (x : RegNum) : Statement (Instr.skipIfKeyUp x) :=
  of_row 25 ⟨"SkipIfKeyUp", 0xE0A1, 0xF0FF, []⟩ rfl rfl (packXKK_andF0FF _ _ _) rfl

theorem readDelay (x : RegNum) : Statement (Instr.readDelay x) :=
  of_row 26 ⟨"ReadDelay", 0xF007, 0xF0FF, []⟩ rfl rfl (packXKK_andF0FF _ _ _) rfl

theorem waitKey (x : RegNum) : Statement (Instr.waitKey x) :=
  of_row 27 ⟨"WaitKey", 0xF00A, 0xF0FF, []⟩ rfl rfl (packXKK_andF0FF _ _ _) rfl

theorem setDelay (x : RegNum) : Statement (Instr.setDelay x) :=
  of_row 28 ⟨"SetDelay", 0xF015, 0xF0FF, []⟩ rfl rfl (packXKK_andF0FF _ _ _) rfl

theorem setSound (x : RegNum) : Statement (Instr.setSound x) :=
  of_row 29 ⟨"SetSound", 0xF018, 0xF0FF, []⟩ rfl rfl (packXKK_andF0FF _ _ _) rfl

theorem addIndex (x : RegNum) : Statement (Instr.addIndex x) :=
  of_row 30 ⟨"AddIndex", 0xF01E, 0xF0FF, []⟩ rfl rfl (packXKK_andF0FF _ _ _) rfl

theorem loadFontAddr (x : RegNum) : Statement (Instr.loadFontAddr x) :=
  of_row 31 ⟨"LoadFontAddr", 0xF029, 0xF0FF, []⟩ rfl rfl (packXKK_andF0FF _ _ _) rfl

theorem storeBCD (x : RegNum) : Statement (Instr.storeBCD x) :=
  of_row 32 ⟨"StoreBCD", 0xF033, 0xF0FF, []⟩ rfl rfl (packXKK_andF0FF _ _ _) rfl

theorem storeRegisters (x : RegNum) : Statement (Instr.storeRegisters x) :=
  of_row 33 ⟨"StoreRegisters", 0xF055, 0xF0FF, []⟩ rfl rfl (packXKK_andF0FF _ _ _) rfl

theorem loadRegisters (x : RegNum) : Statement (Instr.loadRegisters x) :=
  of_row 34 ⟨"LoadRegisters", 0xF065, 0xF0FF, []⟩ rfl rfl (packXKK_andF0FF _ _ _) rfl

end Sys2Proof.Laws.EncodesInItsRow
end

