-- ==== Sys2Proof/Tests/Slice0.lean ====
section
/-! SUPPORT. The model's own tests: ill-formed terms are refused, one word of every row decodes, one step on a small state for
every instruction, and for every statement with hypotheses a named witness that meets them. Expected results are taken from
95_test_vectors.md (the vector's name stands in each comment), not from the model. -/

namespace Sys2Proof.Tests

open Sys2Proof.Machine Sys2Proof.Claims

/-! ### Helpers -/

/-- The state after reset with a word at 0x200. -/
def at200 (w : Nat) : State := State.reset.withFetchWord 16 w

/-- A state with two registers set. -/
def regs2 (s : State) (x : RegNum) (a : Byte) (y : RegNum) (b : Byte) : State := (s.setReg x a).setReg y b

/-- A state with bytes placed in memory. -/
def poke (s : State) (a : Nat) (bs : List Byte) : State := s.setMem (s.mem.putAll a bs)

/-- The result is a next state that passes a check. -/
def gives (r : Result) (p : State → Bool) : Bool :=
  match r with
  | .next t => p t
  | .fault _ => false
  | .refused _ => false

/-- The result is the error. -/
def errs (r : Result) (k : Fault) : Bool :=
  match r with
  | .next _ => false
  | .fault k' => decide (k' = k)
  | .refused _ => false

/-- How many pixels are lit. -/
def litCount (d : Display) : Nat := (d.toList.map fun row => row.toList.countP (· = .white)).sum

/-! ### Well-formedness: every check refuses an ill-formed term (R64, R66) -/

theorem test_wf_refuses_native_00E0 : (Instr.nativeCall 0x0E0).wellFormed = false := by decide
theorem test_wf_refuses_native_00EE : (Instr.nativeCall 0x0EE).wellFormed = false := by decide
theorem test_wf_refuses_jumpOffset_x : (Instr.jumpOffset 0x2F0 0x3).wellFormed = false := by decide
theorem test_wf_accepts : (Instr.nativeCall 0x0E1).wellFormed = true ∧ (Instr.jumpOffset 0x2F0 0x2).wellFormed = true := by decide

/-! ### Decode: a word of every row, written out from the opcode map of R66 -/

theorem test_decode_control :
    decode 0b0000000011100000#16 = .ok .clearScreen ∧ decode 0b0000000011101110#16 = .ok .ret ∧
    decode 0b0000000100100011#16 = .ok (.nativeCall 0x123) ∧ decode 0b0001001000100100#16 = .ok (.jump 0x224) ∧
    decode 0b0010001000001010#16 = .ok (.call 0x20A) ∧ decode 0b1011001011110000#16 = .ok (.jumpOffset 0x2F0 0x2) := by decide
theorem test_decode_skip :
    decode 0b0011000110000000#16 = .ok (.skipEqImm 0x1 0x80) ∧ decode 0b0100101010000001#16 = .ok (.skipNeqImm 0xA 0x81) ∧
    decode 0b0101000100100000#16 = .ok (.skipEqReg 0x1 0x2) ∧ decode 0b1001000100100000#16 = .ok (.skipNeqReg 0x1 0x2) := by decide
theorem test_decode_immediate :
    decode 0b0110001110100111#16 = .ok (.loadImm 0x3 0xA7) ∧ decode 0b0111000000000010#16 = .ok (.addImm 0x0 0x02) ∧
    decode 0b1100010000001111#16 = .ok (.random 0x4 0x0F) := by decide
theorem test_decode_family8 :
    decode 0b1000000100100000#16 = .ok (.move 0x1 0x2) ∧ decode 0b1000000100100001#16 = .ok (.or 0x1 0x2) ∧
    decode 0b1000000100100010#16 = .ok (.and 0x1 0x2) ∧ decode 0b1000000100100011#16 = .ok (.xor 0x1 0x2) ∧
    decode 0b1000000100100100#16 = .ok (.addReg 0x1 0x2) ∧ decode 0b1000000100100101#16 = .ok (.subReg 0x1 0x2) ∧
    decode 0b1000000100100110#16 = .ok (.shiftRight 0x1 0x2) ∧ decode 0b1000000100100111#16 = .ok (.subnReg 0x1 0x2) ∧
    decode 0b1000000100101110#16 = .ok (.shiftLeft 0x1 0x2) := by decide
theorem test_decode_index_display :
    decode 0b1010001100000000#16 = .ok (.loadIndex 0x300) ∧ decode 0b1101000100100101#16 = .ok (.draw 0x1 0x2 0x5) := by decide
theorem test_decode_familyE :
    decode 0b1110001110011110#16 = .ok (.skipIfKeyDown 0x3) ∧ decode 0b1110001110100001#16 = .ok (.skipIfKeyUp 0x3) := by decide
theorem test_decode_familyF :
    decode 0b1111010000000111#16 = .ok (.readDelay 0x4) ∧ decode 0b1111001100001010#16 = .ok (.waitKey 0x3) ∧
    decode 0b1111001100010101#16 = .ok (.setDelay 0x3) ∧ decode 0b1111010100011000#16 = .ok (.setSound 0x5) ∧
    decode 0b1111001000011110#16 = .ok (.addIndex 0x2) ∧ decode 0b1111000000101001#16 = .ok (.loadFontAddr 0x0) ∧
    decode 0b1111000000110011#16 = .ok (.storeBCD 0x0) ∧ decode 0b1111001001010101#16 = .ok (.storeRegisters 0x2) ∧
    decode 0b1111001001100101#16 = .ok (.loadRegisters 0x2) := by decide
/-- X6 to X14. -/
theorem test_decode_unknown :
    decode 0x5121 = .error (.unknownInstruction 0x5121) ∧ decode 0x9001 = .error (.unknownInstruction 0x9001) ∧
    decode 0x8128 = .error (.unknownInstruction 0x8128) ∧ decode 0x812F = .error (.unknownInstruction 0x812F) ∧
    decode 0xE000 = .error (.unknownInstruction 0xE000) ∧ decode 0xE09F = .error (.unknownInstruction 0xE09F) ∧
    decode 0xF000 = .error (.unknownInstruction 0xF000) ∧ decode 0xF0FF = .error (.unknownInstruction 0xF0FF) ∧
    decode 0xF175 = .error (.unknownInstruction 0xF175) := by decide
theorem test_decode_truncated : decodeBytes [] = .error .truncated ∧ decodeBytes [0x12] = .error .truncated := by decide
/-- The bytes of E2, and the host's numbering of them. -/
theorem test_decode_bytes :
    decodeBytes [0x12, 0x24, 0x99] = .ok (.jump 0x224, [0x99]) ∧ decodeTableWord 16 0x1224 = some (.jump 0x224) := by decide

/-! ### One step of each instruction -/

/-- C1. -/
theorem test_jump : gives (step (at200 0x1FFF)) (fun t => t.pc = 0x0FFF) = true := by decide
/-- C3. -/
theorem test_call :
    gives (step ((at200 0x220A))) (fun t => t.stack[0] = 0x0202 ∧ t.sp = 1 ∧ t.pc = 0x020A) = true := by decide
/-- C4. -/
theorem test_call_full : errs (exec (.call 0x300) { State.reset with sp := 16 }) .stackOverflow = true := by decide
/-- C6. -/
theorem test_ret :
    gives (step { at200 0x00EE with sp := 1, stack := Vector.replicate _ 0x0206 }) (fun t => t.sp = 0 ∧ t.pc = 0x0206) = true := by
  decide
/-- C6b. -/
theorem test_ret_empty : errs (step (at200 0x00EE)) .stackUnderflow = true := by decide
/-- C7 and C9. -/
theorem test_jumpOffset :
    gives (step (regs2 (at200 0xB2F0) 0x0 0x10 0x2 0x04)) (fun t => t.pc = 0x0300) = true ∧
    gives (step ((at200 0xBFFF).setReg 0x0 0xFF)) (fun t => t.pc = 0x10FE) = true := by decide
/-- C8. -/
theorem test_jumpOffset_quirk :
    gives (step { regs2 (at200 0xB2F0) 0x0 0x10 0x2 0x04 with qJump := true }) (fun t => t.pc = 0x02F4) = true := by decide
/-- C10. -/
theorem test_nativeCall : errs (step (at200 0x0123)) .unsupportedNativeCall = true := by decide
/-- S1, S2. -/
theorem test_skipEqImm :
    gives (step (at200 0x3100)) (fun t => t.pc = 0x0204) = true ∧
    gives (step ((at200 0x3100).setReg 0x1 0x01)) (fun t => t.pc = 0x0202) = true := by decide
/-- S3, S4. -/
theorem test_skipNeqImm :
    gives (step ((at200 0x4A80).setReg 0xA 0x7F)) (fun t => t.pc = 0x0204) = true ∧
    gives (step ((at200 0x4A7F).setReg 0xA 0x7F)) (fun t => t.pc = 0x0202) = true := by decide
/-- S5, S6. -/
theorem test_skipEqReg :
    gives (step (regs2 (at200 0x5120) 0x1 0x33 0x2 0x33)) (fun t => t.pc = 0x0204) = true ∧
    gives (step (regs2 (at200 0x5120) 0x1 0x33 0x2 0x34)) (fun t => t.pc = 0x0202) = true := by decide
/-- S8, S9. -/
theorem test_skipNeqReg :
    gives (step (regs2 (at200 0x9120) 0x1 0x33 0x2 0x34)) (fun t => t.pc = 0x0204) = true ∧
    gives (step (regs2 (at200 0x9120) 0x1 0x33 0x2 0x33)) (fun t => t.pc = 0x0202) = true := by decide
/-- A1. -/
theorem test_loadImm : gives (step (at200 0x63A7)) (fun t => t.reg 0x3 = 0xA7 ∧ t.pc = 0x0202) = true := by decide
/-- A3. -/
theorem test_addImm : gives (step ((at200 0x7002).setReg 0x0 0xFF)) (fun t => t.reg 0x0 = 0x01 ∧ t.reg 0xF = 0x00) = true := by
  decide
/-- A4. -/
theorem test_addImm_vf : gives (step ((at200 0x7F01).setReg 0xF 0xFF)) (fun t => t.reg 0xF = 0x00) = true := by decide
/-- A5. -/
theorem test_move : gives (step ((at200 0x8120).setReg 0x2 0x5C)) (fun t => t.reg 0x1 = 0x5C) = true := by decide
/-- A6. -/
theorem test_or :
    gives (step ((regs2 (at200 0x8121) 0x1 0xF0 0x2 0x3C).setReg 0xF 0x01)) (fun t => t.reg 0x1 = 0xFC ∧ t.reg 0xF = 0x01) = true := by
  decide
/-- A7. -/
theorem test_and :
    gives (step ((regs2 (at200 0x8122) 0x1 0xF0 0x2 0x3C).setReg 0xF 0x01)) (fun t => t.reg 0x1 = 0x30 ∧ t.reg 0xF = 0x01) = true := by
  decide
/-- A8. -/
theorem test_xor :
    gives (step ((regs2 (at200 0x8123) 0x1 0xF0 0x2 0x3C).setReg 0xF 0x01)) (fun t => t.reg 0x1 = 0xCC ∧ t.reg 0xF = 0x01) = true := by
  decide
/-- A11, A12. -/
theorem test_addReg :
    gives (step (regs2 (at200 0x8014) 0x0 0xFF 0x1 0x01)) (fun t => t.reg 0x0 = 0x00 ∧ t.reg 0xF = 0x01) = true ∧
    gives (step (regs2 (at200 0x8014) 0x0 0xFE 0x1 0x01)) (fun t => t.reg 0x0 = 0xFF ∧ t.reg 0xF = 0x00) = true := by decide
/-- A14, A15. -/
theorem test_addReg_vf :
    gives (step (regs2 (at200 0x8F14) 0xF 0x10 0x1 0x01)) (fun t => t.reg 0xF = 0x00) = true ∧
    gives (step (regs2 (at200 0x80F4) 0x0 0x01 0xF 0x01)) (fun t => t.reg 0x0 = 0x02 ∧ t.reg 0xF = 0x00) = true := by decide
/-- A17, A19. -/
theorem test_subReg :
    gives (step (regs2 (at200 0x8015) 0x0 0x10 0x1 0x20)) (fun t => t.reg 0x0 = 0xF0 ∧ t.reg 0xF = 0x00) = true ∧
    gives (step (regs2 (at200 0x8015) 0x0 0x33 0x1 0x33)) (fun t => t.reg 0x0 = 0x00 ∧ t.reg 0xF = 0x01) = true := by decide
/-- A20. -/
theorem test_subReg_vf : gives (step (regs2 (at200 0x8F15) 0xF 0x05 0x1 0x03)) (fun t => t.reg 0xF = 0x01) = true := by decide
/-- A22, A23. -/
theorem test_subnReg :
    gives (step (regs2 (at200 0x8017) 0x0 0x10 0x1 0x20)) (fun t => t.reg 0x0 = 0x10 ∧ t.reg 0xF = 0x01) = true ∧
    gives (step (regs2 (at200 0x8017) 0x0 0x20 0x1 0x10)) (fun t => t.reg 0x0 = 0xF0 ∧ t.reg 0xF = 0x00) = true := by decide
/-- A24, A27. -/
theorem test_shiftRight :
    gives (step (regs2 (at200 0x8126) 0x1 0x05 0x2 0xF0)) (fun t => t.reg 0x1 = 0x02 ∧ t.reg 0xF = 0x01) = true ∧
    gives (step ((at200 0x8F06).setReg 0xF 0x03)) (fun t => t.reg 0xF = 0x01) = true := by decide
/-- A25. -/
theorem test_shiftRight_quirk :
    gives (step { regs2 (at200 0x8126) 0x1 0x05 0x2 0xF0 with qShift := true })
      (fun t => t.reg 0x1 = 0x78 ∧ t.reg 0xF = 0x00 ∧ t.reg 0x2 = 0xF0) = true := by decide
/-- A30, A32. -/
theorem test_shiftLeft :
    gives (step (regs2 (at200 0x812E) 0x1 0x81 0x2 0x3C)) (fun t => t.reg 0x1 = 0x02 ∧ t.reg 0xF = 0x01) = true ∧
    gives (step ((at200 0x8F0E).setReg 0xF 0x40)) (fun t => t.reg 0xF = 0x00) = true := by decide
/-- A31. -/
theorem test_shiftLeft_quirk :
    gives (step { regs2 (at200 0x812E) 0x1 0x81 0x2 0x3C with qShift := true })
      (fun t => t.reg 0x1 = 0x78 ∧ t.reg 0xF = 0x00) = true := by decide
/-- A35: one byte is drawn; the byte itself is free. -/
theorem test_random : gives (step (at200 0xC400)) (fun t => t.randPos = 1 ∧ t.pc = 0x0202) = true := by decide
/-- A35: the masked value is 0 whatever the byte. -/
theorem test_random_mask0 : ∀ t, exec (.random 0x4 0x00) State.reset = .next t → t.reg 0x4 = 0x00 := by
  intro t h
  have h' : t = (State.reset.drawByte.2.setReg 0x4 (State.reset.drawByte.1 &&& 0x00#8)).advance := (by injection h with h; exact h.symm)
  subst h'
  exact BitVec.and_zero
/-- M1. -/
theorem test_loadIndex : gives (step ((at200 0xA300).setI 0xFFFF)) (fun t => t.i = 0x0300) = true := by decide
/-- M2, M3. -/
theorem test_addIndex :
    gives (step (((at200 0xF21E).setI 0x0FFE).setReg 0x2 0x05)) (fun t => t.i = 0x1003) = true ∧
    gives (step (((at200 0xF01E).setI 0xFFFF).setReg 0x0 0x02)) (fun t => t.i = 0x0001 ∧ t.reg 0xF = 0x00) = true := by decide
/-- M4, M6. -/
theorem test_loadFontAddr :
    gives (step ((at200 0xF029).setReg 0x0 0x0A)) (fun t => t.i = 0x0082) = true ∧
    gives (step ((at200 0xF029).setReg 0x0 0xFF)) (fun t => t.i = 0x009B) = true := by decide
/-- M8. -/
theorem test_storeBCD :
    gives (step (((at200 0xF033).setReg 0x0 0xFE).setI 0x0300)) (fun t => t.mem.readBlock 0x300 3 = some [0x02, 0x05, 0x04]) = true := by
  decide
/-- M15. -/
theorem test_storeBCD_bound : errs (exec (.storeBCD 0x0) (State.reset.setI 0x0FFE)) .memoryOutOfBounds = true := by decide
/-- M16. -/
theorem test_storeRegisters :
    gives (step (((regs2 (at200 0xF255) 0x0 0x11 0x1 0x22).setReg 0x2 0x33).setI 0x0400))
      (fun t => t.mem.readBlock 0x400 4 = some [0x11, 0x22, 0x33, 0x00] ∧ t.i = 0x0400) = true := by decide
/-- M17. -/
theorem test_storeRegisters_bound : errs (exec (.storeRegisters 0x1) (State.reset.setI 0x0FFF)) .memoryOutOfBounds = true := by decide
/-- M20. -/
theorem test_loadRegisters :
    gives (step (((poke (at200 0xF265) 0x300 [0x02, 0x05, 0x04, 0xAA]).setI 0x0300).setReg 0x3 0x99))
      (fun t => t.reg 0x0 = 0x02 ∧ t.reg 0x1 = 0x05 ∧ t.reg 0x2 = 0x04 ∧ t.reg 0x3 = 0x99) = true := by decide
/-- M21. -/
theorem test_loadRegisters_bound : errs (exec (.loadRegisters 0x2) (State.reset.setI 0x0FFE)) .memoryOutOfBounds = true := by decide
/-- G12. -/
theorem test_clearScreen :
    gives (step { at200 0x00E0 with disp := Display.allBlack.setPixel 31 63 .white }) (fun t => litCount t.disp = 0) = true := by
  decide +kernel
/-- G3. -/
theorem test_draw_collision :
    gives (step (poke { (at200 0xD001).setI 0x0300 with disp := Display.allBlack.setPixel 0 0 .white } 0x300 [0xC0]))
      (fun t => t.disp.pixel 0 0 = .black ∧ t.disp.pixel 0 1 = .white ∧ litCount t.disp = 1 ∧ t.reg 0xF = 0x01) = true := by
  decide +kernel
/-- G6. -/
theorem test_draw_wrap :
    gives (step (regs2 (poke ((at200 0xD012).setI 0x0300) 0x300 [0x81, 0xFF]) 0x0 0x3C 0x1 0x1F))
      (fun t => t.disp.pixel 31 60 = .white ∧ t.disp.pixel 31 3 = .white ∧ t.disp.pixel 0 63 = .white ∧
        t.disp.pixel 0 0 = .white ∧ litCount t.disp = 10 ∧ t.reg 0xF = 0x00) = true := by decide +kernel
/-- K2. -/
theorem test_readDelay : gives (step ((at200 0xF407).setDT 0x06)) (fun t => t.reg 0x4 = 0x06) = true := by decide
/-- K1. -/
theorem test_setDelay : gives (step ((at200 0xF315).setReg 0x3 0x07)) (fun t => t.dt = 0x07 ∧ t.st = 0x00) = true := by decide
/-- K3. -/
theorem test_setSound : gives (step ((at200 0xF518).setReg 0x5 0x1E)) (fun t => t.st = 0x1E ∧ soundOn t = true) = true := by decide
/-- K5, K7. -/
theorem test_skipIfKeyDown :
    gives (step (((at200 0xE39E).setReg 0x3 0x07).setPressed 0x0084)) (fun t => t.pc = 0x0204) = true ∧
    gives (step (((at200 0xE39E).setReg 0x3 0x17).setPressed 0x0084)) (fun t => t.pc = 0x0202) = true := by decide
/-- K8, K9. -/
theorem test_skipIfKeyUp :
    gives (step (((at200 0xE3A1).setReg 0x3 0x05).setPressed 0x0084)) (fun t => t.pc = 0x0204) = true ∧
    gives (step (((at200 0xE3A1).setReg 0x3 0x17).setPressed 0x0084)) (fun t => t.pc = 0x0204) = true := by decide
/-- K10, K12. -/
theorem test_waitKey :
    gives (step (at200 0xF30A)) (fun t => t.wait = some 0x3 ∧ t.pc = 0x0202 ∧
      (keyEvent 0x7 t).reg 0x3 = 0x07 ∧ (keyEvent 0x7 t).wait = none) = true := by decide

/-! ### Fetch, events, reset -/

/-- C2: an odd `PC`. -/
theorem test_fetch_odd :
    gives (step { poke State.reset 0x203 [0x6A, 0x55] with pc := 0x0203 }) (fun t => t.reg 0xA = 0x55 ∧ t.pc = 0x0205) = true := by
  decide
/-- X15, X16: the last legal fetch address. -/
theorem test_fetch_edge :
    errs (step { State.reset with pc := 0x0FFF }) .memoryOutOfBounds = true ∧
    gives (step { poke State.reset 0xFFE [0x1F, 0xFE] with pc := 0x0FFE }) (fun t => t.pc = 0x0FFE) = true := by decide
/-- K4. -/
theorem test_tick :
    (tick { State.reset with dt := 0x01, st := 0x02 }).dt = 0x00 ∧ (tick { State.reset with dt := 0x01, st := 0x02 }).st = 0x01 ∧
    (tick State.reset).dt = 0x00 := by decide
/-- Z1: memory after reset. -/
theorem test_reset_memory :
    State.reset.mem.read 0x04F = some 0x00 ∧ State.reset.mem.read 0x050 = some 0xF0 ∧ State.reset.mem.read 0x082 = some 0xF0 ∧
    State.reset.mem.read 0x09F = some 0x80 ∧ State.reset.mem.read 0x0A0 = some 0x00 ∧ State.reset.mem.read 0x1000 = none := by
  decide
/-- Z5: a loaded program. -/
theorem test_reset_program :
    (resetMemory [0xAB, 0xCD, 0xEF] Config.defaultFont).readBlock 0x200 4 = some [0xAB, 0xCD, 0xEF, 0x00] := by decide +kernel
/-- Z2. -/
theorem test_reset_cycle : errs (step State.reset) .unsupportedNativeCall = true := by decide

/-! ### Witnesses: states and operands that meet the hypotheses of the statements, each clause at the edge of its range -/

theorem witness_DecodeOfEncode : (Instr.draw 0xF 0xF 0xF).WellFormed ∧ (Instr.jumpOffset 0xFFF 0xF).WellFormed := by decide
theorem witness_EncodeOfDecode : decode 0xBFFF = .ok (.jumpOffset 0xFFF 0xF) := by decide
/-- Every row that `EncodesAs` names has a word. -/
theorem witness_EncodesAs : ∀ row ∈ opcodeMap, row.bits &&& row.mask = row.bits := by decide
theorem witness_opcode_rows :
    (∃ row ∈ opcodeMap, row.Selects 0x00E1#16) ∧ ∀ row ∈ opcodeMap, ¬ row.Selects 0x5121#16 := by decide
theorem witness_native_words :
    (0x0000#16 &&& 0xF000#16 = 0x0000#16 ∧ 0x0000#16 ≠ 0x00E0#16 ∧ 0x0000#16 ≠ 0x00EE#16) ∧
    (0x0FFF#16 &&& 0xF000#16 = 0x0000#16 ∧ 0x0FFF#16 ≠ 0x00E0#16 ∧ 0x0FFF#16 ≠ 0x00EE#16) := by decide
theorem witness_UnknownWords : decode 0x5121 = .error (.unknownInstruction 0x5121) := by decide
/-- A running state whose word is `w`, for the statements with `Running` and `WordAtPC`. -/
theorem witness_WordAtPC :
    (at200 0x1224).Running ∧ WordAtPC (at200 0x1224) 0x1224#16 ∧ decode 0x1224#16 = .ok (.jump 0x224) ∧
    (Instr.jump 0x224).WellFormed ∧ encode (.jump 0x224) = 0x1224#16 :=
  ⟨rfl, ⟨0x12, 0x24, by decide, by decide, by decide⟩, by decide, by decide, by decide⟩
theorem witness_WordAtPC_odd :
    WordAtPC { poke State.reset 0x203 [0x6A, 0x55] with pc := 0x0203 } 0x6A55#16 :=
  ⟨0x6A, 0x55, by decide, by decide, by decide⟩
theorem witness_WordAtPC_unknown :
    (at200 0x5121).Running ∧ WordAtPC (at200 0x5121) 0x5121#16 ∧ ∀ row ∈ opcodeMap, ¬ row.Selects 0x5121#16 :=
  ⟨rfl, ⟨0x51, 0x21, by decide, by decide, by decide⟩, by decide⟩
theorem witness_WordAtPC_native : State.reset.Running ∧ WordAtPC State.reset 0x0000#16 :=
  ⟨rfl, ⟨0x00, 0x00, by decide, by decide, by decide⟩⟩
theorem witness_fetch_bounds :
    ({ State.reset with pc := 0x0FFE } : State).pc.toNat ≤ 0xFFE ∧ ({ State.reset with pc := 0x0FFF } : State).Running ∧
    0xFFE < ({ State.reset with pc := 0x0FFF } : State).pc.toNat := by decide
theorem witness_suspended : (State.reset.setWait (some 0x3)).wait = some 0x3 ∧ (State.reset.setWait (some 0x3)).wait.isSome = true := by
  decide
/-- Also for the statements whose only hypothesis is a canonical memory. -/
theorem witness_memory_wf : Memory.wf State.reset.mem ∧ Memory.wf (at200 0x1224).mem := by decide
/-- A state that a meaning goes on from, for the statements about every next state. -/
theorem witness_exec_next :
    (∃ t, exec (.jump 0x224) State.reset = .next t) ∧ (∃ t, exec (.storeRegisters 0x1) State.reset = .next t) ∧
    (∃ t, exec (.draw 0x0 0x1 0x0) State.reset = .next t) ∧ (∃ t, exec (.call 0x300) State.reset = .next t) ∧
    (∃ t, exec (.addReg 0xF 0x1) State.reset = .next t) ∧ (∃ t, exec (.random 0x4 0x0F) State.reset = .next t) :=
  ⟨⟨_, rfl⟩, ⟨_, rfl⟩, ⟨_, rfl⟩, ⟨_, rfl⟩, ⟨_, rfl⟩, ⟨_, rfl⟩⟩
/-- A register that changes, as an ordinary destination and as the flag. -/
theorem witness_register_changes :
    gives (exec (.loadImm 0x3 0xA7) State.reset) (fun t => t.reg 0x3 ≠ State.reset.reg 0x3) = true ∧
    gives (exec (.subReg 0x0 0x1) State.reset) (fun t => t.reg 0xF ≠ State.reset.reg 0xF) = true := by decide
/-- A cycle that reports an error, and events none of which is a reset. -/
theorem witness_error :
    (applyEvent State.reset .cycle).2 = .err .unsupportedNativeCall ∧
    ∀ e ∈ [Event.tick, Event.setKeys 0x0001, Event.keyEvent 0x3, Event.cycle], NotReset e := by
  refine ⟨by decide, ?_⟩
  intro e he p f a b h
  subst h
  simp at he
/-- A reset that reports an error: 3585 bytes (Z4). -/
theorem witness_reset_error :
    (applyEvent State.reset (.reset (List.replicate 3585 0x00) Config.defaultFont false false)).2 = .err .programTooLarge := by
  decide +kernel
theorem witness_Inv : State.reset.Inv ∧ (at200 0x1224).Inv ∧ ∃ t, step (at200 0x1224) = .next t :=
  ⟨⟨by decide, by decide, by decide⟩, ⟨by decide, by decide, by decide⟩, ⟨_, rfl⟩⟩
/-- The invariant at the edge of its range: `PC` at 0x10FE, a live return address of 0x1000. -/
theorem witness_Inv_edge : ({ State.reset with pc := 0x10FE, sp := 1, stack := Vector.replicate _ 0x1000 } : State).Inv :=
  ⟨by decide, by decide, by decide⟩
theorem witness_reset_ok :
    ∃ t, resetEvent [0x12, 0x00] Config.defaultFont true false 5 = .ok t ∧ t.qShift = true ∧ t.randPos = 5 := ⟨_, rfl, rfl, rfl⟩
/-- Two states that differ in a dead stack entry. -/
theorem witness_AgreeOnLive :
    AgreeOnLive State.reset { State.reset with stack := Vector.replicate _ 0x0202 } ∧
    ({ State.reset with stack := Vector.replicate _ 0x0202 } : State).stack ≠ State.reset.stack :=
  ⟨⟨rfl, fun k hk => absurd hk (Nat.not_lt_zero _)⟩, by decide⟩
theorem witness_step_outcomes : (∃ t, step (at200 0xF518) = .next t) ∧ step State.reset = .fault .unsupportedNativeCall :=
  ⟨⟨_, rfl⟩, rfl⟩
/-- Equal records at two places in RAND, at an instruction that draws nothing. -/
theorem witness_equal_records :
    (at200 0x1224).toRecord = ({ at200 0x1224 with randPos := 7 } : State).toRecord ∧
    (∀ x kk, nextInstr (at200 0x1224) = some (.random x kk) → Config.randByte 0 = Config.randByte 7) ∧
    nextInstr (at200 0xC40F) = some (.random 0x4 0x0F) :=
  ⟨rfl, fun _ _ h => absurd h (by rw [show nextInstr (at200 0x1224) = some (.jump 0x224) from by decide]; simp), by decide⟩
theorem witness_call_bounds :
    ({ State.reset with sp := 15 } : State).sp.val < 16 ∧ ({ State.reset with sp := 16 } : State).sp.val = 16 ∧
    ({ State.reset with sp := 16 } : State).sp.val = (15 : Fin 16).val + 1 ∧
    ({ State.reset with sp := 1 } : State).sp.val = (0 : Fin 16).val + 1 ∧ State.reset.sp.val = 0 := by decide
theorem witness_call_return : ∃ t u, exec (.call 0x300) { State.reset with sp := 15 } = .next t ∧ SameStack t u :=
  ⟨_, _, rfl, rfl, fun _ => rfl⟩
theorem witness_skip_words :
    (0x5121#16).toNat / 4096 = 0x5 ∧ (0x9001#16).toNat / 4096 = 0x9 ∧ (0x5121#16).toNat % 16 ≠ 0 ∧ (0x9001#16).toNat % 16 ≠ 0 := by
  decide
theorem witness_shift_source : ∃ a, a = (if State.reset.qShift then State.reset.reg 0x2 else State.reset.reg 0x1).toNat := ⟨_, rfl⟩
theorem witness_storeBCD_bounds :
    effAddr (State.reset.setI 0x0FFD) 2 ≤ 4095 ∧ effAddr (State.reset.setI 0x0FFE) 2 > 4095 := by decide
theorem witness_register_block_bounds :
    effAddr (State.reset.setI 0x0FF0) (0xF#4).toNat ≤ 4095 ∧ effAddr (State.reset.setI 0x0FF1) (0xF#4).toNat > 4095 ∧
    effAddr (State.reset.setI 0x0FFF) (0x0#4).toNat ≤ 4095 := by decide
theorem witness_store_then_load :
    ∃ t u, exec (.storeRegisters 0xF) (State.reset.setI 0x0FF0) = .next t ∧ SameMemory t u ∧ u.i = t.i := ⟨_, _, rfl, fun _ => rfl, rfl⟩
/-- StoreRegisters over the two bytes at the new `PC`, by `V[0]` and `V[1]`. -/
theorem witness_stored_word :
    ∃ t, State.reset.Running ∧ exec (.storeRegisters 0x1) (State.reset.setI 0x0202) = .next t ∧ (0x1#4).toNat = (0x0#4).toNat + 1 ∧
      t.pc.toNat = effAddr (State.reset.setI 0x0202) (0x0#4).toNat := ⟨_, rfl, rfl, rfl, rfl⟩
theorem witness_addresses : (4095 : Nat) ≤ 4095 ∧ (4096 : Nat) > 4095 := by decide
theorem witness_draw_bounds :
    effAddr (State.reset.setI 0x0FF1) ((0xF#4).toNat - 1) ≤ 4095 ∧ effAddr (State.reset.setI 0x0FF2) ((0xF#4).toNat - 1) > 4095 ∧
    0xF#4 ≠ 0#4 ∧ effAddr (State.reset.setI 0x0FFF) ((0x1#4).toNat - 1) ≤ 4095 := by decide
/-- A sprite pixel that wraps in both directions. -/
theorem witness_SpriteCovers : SpriteCovers 0xFF 0xFF [0xFF, 0x01] 0 6 :=
  ⟨1, 7, 0x01, by decide, by decide, by decide, by decide, by decide⟩
theorem witness_draw_twice :
    ∃ t w, exec (.draw 0x0 0x1 0x1) (poke (State.reset.setI 0x0300) 0x300 [0x80]) = .next t ∧
      exec (.draw 0x0 0x1 0x1) t = .next w ∧ t.i = State.reset.i + 0x0300 ∧ t.reg 0x0 = State.reset.reg 0x0 :=
  ⟨_, _, rfl, rfl, by decide, by decide⟩
theorem witness_events :
    NotReset .tick ∧ NotKeyEvent .cycle ∧ Event.tick ≠ .cycle ∧ ∀ keys, Event.tick ≠ .setKeys keys := by
  refine ⟨?_, ?_, by decide, ?_⟩
  · intro p f a b h; cases h
  · intro k h; cases h
  · intro keys h; cases h
theorem witness_suspended_run : ∀ e ∈ [Event.cycle, Event.tick, Event.setKeys 0xFFFF], NotReset e ∧ NotKeyEvent e := by
  intro e he
  refine ⟨?_, ?_⟩
  · intro p f a b h; subst h; simp at he
  · intro k h; subst h; simp at he
theorem witness_program_lengths : (List.replicate 3584 (0x00#8)).length ≤ 3584 ∧ (List.replicate 3585 (0x00#8)).length > 3584 :=
  ⟨Nat.le_of_eq List.length_replicate, Nat.lt_of_lt_of_eq (by decide) List.length_replicate.symm⟩
theorem witness_cycle_ok :
    (applyEvent (at200 0x00E0) .cycle).2 = .ok ⟨true, false⟩ ∧ (applyEvent (at200 0xF30A) .cycle).2 = .ok ⟨false, true⟩ ∧
    (applyEvent (at200 0x1224) .cycle).2 = .ok ⟨false, false⟩ := by decide

end Sys2Proof.Tests
end

/-! SUPPORT. What an instruction that completes leaves behind: the new state of the instructions that can fail, the fields that
each instruction may write, and what becomes of the registers and of `PC` (10_state.md R11, R13, R16, R33). -/

namespace Sys2Proof.Machine

/-! ### The new state of the instructions that can fail -/

/-- Return on a stack that is not empty (R21, R101). -/
theorem exec_ret_of_pos {s : State} (h0 : 0 < s.sp.val) (hb : s.sp.val - 1 < 16) :
    exec .ret s = .next { s with sp := ⟨s.sp.val - 1, Nat.lt_succ_of_lt hb⟩, pc := s.stack[s.sp.val - 1] } := by
  simp only [exec, execReturn, pop_of_pos h0 hb]
  rfl

/-- Return on an empty stack (R101). -/
theorem exec_ret_of_zero {s : State} (h : s.sp.val = 0) : exec .ret s = .fault .stackUnderflow := by
  simp only [exec, execReturn, pop_eq_none.2 h, raise]

/-- Call on a stack that is not full (R20, R103). -/
theorem exec_call_of_lt (nnn : Imm12) {s : State} (hs : s.sp.val < 16) :
    exec (.call nnn) s = .next { s with
      stack := s.stack.set s.sp.val (s.pc + 2#16) hs, sp := ⟨s.sp.val + 1, Nat.succ_lt_succ hs⟩, pc := nnn.zeroExtend 16 } := by
  simp only [exec, execCall, push_of_lt hs]
  rfl

/-- Call on a full stack (R103). -/
theorem exec_call_of_full (nnn : Imm12) {s : State} (h : s.sp.val = 16) : exec (.call nnn) s = .fault .stackOverflow := by
  simp only [exec, execCall, push_eq_none.2 h, raise]

/-- The call stack is empty, or it has a topmost entry. -/
theorem sp_zero_or_pos (s : State) : s.sp.val = 0 ∨ 0 < s.sp.val ∧ s.sp.val - 1 < 16 := by
  have : s.sp.val < 17 := s.sp.isLt
  omega

/-- The call stack is full, or it has room. -/
theorem sp_full_or_lt (s : State) : s.sp.val = 16 ∨ s.sp.val < 16 := by
  have : s.sp.val < 17 := s.sp.isLt
  omega

/-- All that a Return that completes does (R21, R101). -/
theorem exec_ret_next {s t : State} (h : exec .ret s = .next t) :
    ∃ (_ : 0 < s.sp.val) (hb : s.sp.val - 1 < 16),
      t = { s with sp := ⟨s.sp.val - 1, Nat.lt_succ_of_lt hb⟩, pc := s.stack[s.sp.val - 1] } := by
  obtain hz | ⟨h0, hb⟩ := sp_zero_or_pos s
  · rw [exec_ret_of_zero hz] at h
    cases h
  · rw [exec_ret_of_pos h0 hb] at h
    cases h
    exact ⟨h0, hb, rfl⟩

/-- All that a Call that completes does (R20, R103). -/
theorem exec_call_next {nnn : Imm12} {s t : State} (h : exec (.call nnn) s = .next t) :
    ∃ hs : s.sp.val < 16, t = { s with
      stack := s.stack.set s.sp.val (s.pc + 2#16) hs, sp := ⟨s.sp.val + 1, Nat.succ_lt_succ hs⟩, pc := nnn.zeroExtend 16 } := by
  obtain hf | hs := sp_full_or_lt s
  · rw [exec_call_of_full nnn hf] at h
    cases h
  · rw [exec_call_of_lt nnn hs] at h
    cases h
    exact ⟨hs, rfl⟩

/-- All that a Draw that completes does (R152). -/
theorem exec_draw_next {x y : RegNum} {n : Nibble} {s t : State} (h : exec (.draw x y n) s = .next t) :
    ∃ sprite, s.mem.readBlock (effAddr s 0) n.toNat = some sprite ∧
      t = ((s.setDisp (blit (s.reg x) (s.reg y) sprite s.disp).1).setFlag
        (flagByte (blit (s.reg x) (s.reg y) sprite s.disp).2)).advance := by
  simp only [exec, execDraw] at h
  rcases hb : s.mem.readBlock (effAddr s 0) n.toNat with _ | sprite <;> rw [hb] at h
  · cases h
  · cases h
    exact ⟨sprite, rfl, rfl⟩

/-- All that a store at `I` that completes does (R46): it replaces memory, and keeps it canonical. -/
theorem storeAtI_next {bs : List Byte} {s t : State} (h : storeAtI bs s = .next t) :
    ∃ m, (s.mem.wf → m.wf) ∧ t = (s.setMem m).advance := by
  unfold storeAtI at h
  rcases hw : s.mem.writeBlock (effAddr s 0) bs with _ | m <;> rw [hw] at h
  · cases h
  · cases h
    exact ⟨m, fun hm => Memory.writeBlock_wf hm hw, rfl⟩

/-- All that a LoadRegisters that completes does (R145). -/
theorem exec_loadRegisters_next {x : RegNum} {s t : State} (h : exec (.loadRegisters x) s = .next t) :
    ∃ bs, s.mem.readBlock (effAddr s 0) (blockLength x) = some bs ∧ t = (s.setRegs 0 bs).advance := by
  simp only [exec, execLoadRegisters] at h
  rcases hb : s.mem.readBlock (effAddr s 0) (blockLength x) with _ | bs <;> rw [hb] at h
  · cases h
  · cases h
    exact ⟨bs, rfl, rfl⟩

/-! ### The fields that an instruction may write -/

/-- `Footprint s i t`: from `s` to `t` the instruction `i` has written at most the fields that R33 lets it write. -/
inductive Footprint (s : State) : Instr → State → Prop where
  /-- Registers and `PC`. Random, which draws too, is left to its own constructor. -/
  | plain {i v p} (hi : ∀ x kk, i ≠ .random x kk) : Footprint s i { s with v := v, pc := p }
  | display {i d v p} (hi : i = .clearScreen ∨ ∃ x y n, i = .draw x y n) : Footprint s i { s with disp := d, v := v, pc := p }
  | memory {i m p} (hi : ∃ x, i = .storeBCD x ∨ i = .storeRegisters x) (hm : s.mem.wf → m.wf) :
    Footprint s i { s with mem := m, pc := p }
  | index {i w p} (hi : ∃ nnn x, i = .loadIndex nnn ∨ i = .addIndex x ∨ i = .loadFontAddr x) :
    Footprint s i { s with i := w, pc := p }
  | call {nnn p} (hs : s.sp.val < 16) : Footprint s (.call nnn) { s with
      stack := s.stack.set s.sp.val (s.pc + 2#16) hs, sp := ⟨s.sp.val + 1, Nat.succ_lt_succ hs⟩, pc := p }
  | ret {p} (hb : s.sp.val - 1 < 16) : Footprint s .ret { s with sp := ⟨s.sp.val - 1, Nat.lt_succ_of_lt hb⟩, pc := p }
  | random {x kk v p} : Footprint s (.random x kk) { s with v := v, pc := p, randPos := s.randPos + 1 }
  | waitKey {x w p} : Footprint s (.waitKey x) { s with wait := w, pc := p }
  | setDelay {x b p} : Footprint s (.setDelay x) { s with dt := b, pc := p }
  | setSound {x b p} : Footprint s (.setSound x) { s with st := b, pc := p }

/-- A skip writes `PC` alone. -/
theorem skipIf_footprint {i : Instr} {s t : State} {c : Bool} (hi : ∀ x kk, i ≠ .random x kk)
    (h : Host.Outcome.next (s.skipIf c) = (.next t : Result)) : Footprint s i t := by
  cases h
  rw [State.skipIf_eq]
  exact .plain hi

/-- A store at `I` writes memory and `PC`. -/
theorem storeAtI_footprint {i : Instr} {bs : List Byte} {s t : State} (hi : ∃ x, i = .storeBCD x ∨ i = .storeRegisters x)
    (h : storeAtI bs s = .next t) : Footprint s i t := by
  obtain ⟨m, hm, rfl⟩ := storeAtI_next h
  exact .memory hi hm

/-- Every instruction that completes stays within its footprint (R33). -/
theorem exec_footprint {i : Instr} {s t : State} (h : exec i s = .next t) : Footprint s i t := by
  cases i with
  | nativeCall nnn => cases h
  | clearScreen => cases h; exact .display (.inl rfl)
  | draw x y n =>
    obtain ⟨sprite, -, rfl⟩ := exec_draw_next h
    exact .display (.inr ⟨x, y, n, rfl⟩)
  | ret =>
    obtain ⟨-, hb, rfl⟩ := exec_ret_next h
    exact .ret hb
  | call nnn =>
    obtain ⟨hs, rfl⟩ := exec_call_next h
    exact .call hs
  | storeBCD x => exact storeAtI_footprint ⟨x, .inl rfl⟩ h
  | storeRegisters x => exact storeAtI_footprint ⟨x, .inr rfl⟩ h
  | loadRegisters x =>
    obtain ⟨bs, -, rfl⟩ := exec_loadRegisters_next h
    obtain ⟨v, hv⟩ := s.setRegs_eq 0 bs
    rw [hv]
    exact .plain nofun
  | loadIndex nnn => cases h; exact .index ⟨nnn, 0, .inl rfl⟩
  | addIndex x => cases h; exact .index ⟨0, x, .inr (.inl rfl)⟩
  | loadFontAddr x => cases h; exact .index ⟨0, x, .inr (.inr rfl)⟩
  | random x kk => cases h; exact .random
  | waitKey x => cases h; exact .waitKey
  | setDelay x => cases h; exact .setDelay
  | setSound x => cases h; exact .setSound
  | skipEqImm x kk | skipNeqImm x kk | skipEqReg x y | skipNeqReg x y | skipIfKeyDown x | skipIfKeyUp x =>
    exact skipIf_footprint nofun h
  | _ => cases h; exact .plain nofun

/-- Random draws one byte, and no other instruction draws (R88). -/
theorem Footprint.randPos {s t : State} {i : Instr} (h : Footprint s i t) :
    ((∃ x kk, i = .random x kk) ∧ t.randPos = s.randPos + 1) ∨ ((∀ x kk, i ≠ .random x kk) ∧ t.randPos = s.randPos) := by
  cases h with
  | random => exact .inl ⟨⟨_, _, rfl⟩, rfl⟩
  | plain hi => exact .inr ⟨hi, rfl⟩
  | display hi | memory hi | index hi => exact .inr ⟨by rintro x kk rfl; simp at hi, rfl⟩
  | _ => exact .inr ⟨nofun, rfl⟩

/-! ### The registers -/

/-- The bytes of a block read are as many as were asked for (R46). -/
theorem length_of_readBlock {m : Memory} {a n : Nat} {bs : List Byte} (h : m.readBlock a n = some bs) :
    bs.length = n := by
  rw [Memory.readBlock_eq] at h
  split at h <;> cases h
  simp

/-- A flag is 0 or 1 (R13). -/
theorem flagByte_eq_zero_or_one (c : Bool) : flagByte c = 0x00#8 ∨ flagByte c = 0x01#8 := by
  cases c
  · exact .inl rfl
  · exact .inr rfl

/-- A result with no flag changes its destination alone. -/
theorem writeResult_changes {x r : RegNum} {b : Byte} {s t : State} (h : writeResult x b s = .next t)
    (hr : t.reg r ≠ s.reg r) : r = x := by
  cases h
  by_contra hx
  simp [hx] at hr

/-- A result with a flag changes its destination and `V[0xF]` alone. -/
theorem writeResultFlag_changes {x r : RegNum} {b : Byte} {c : Bool} {s t : State}
    (h : writeResultFlag x b c s = .next t) (hr : t.reg r ≠ s.reg r) : r = x ∨ r = 0xF#4 := by
  cases h
  by_contra hx
  rw [not_or] at hx
  simp [hx] at hr

/-- A result with a flag leaves 0 or 1 in `V[0xF]` (R13). -/
theorem writeResultFlag_flag {x : RegNum} {b : Byte} {c : Bool} {s t : State}
    (h : writeResultFlag x b c s = .next t) : t.reg 0xF#4 = 0x00#8 ∨ t.reg 0xF#4 = 0x01#8 := by
  cases h
  simpa using flagByte_eq_zero_or_one c

/-- LoadRegisters changes the first `x + 1` registers alone (R145). -/
theorem loadRegisters_changes {x r : RegNum} {s t : State} (h : exec (.loadRegisters x) s = .next t)
    (hr : t.reg r ≠ s.reg r) : r.toNat ≤ x.toNat := by
  obtain ⟨bs, hb, rfl⟩ := exec_loadRegisters_next h
  have hl : bs.length = x.toNat + 1 := length_of_readBlock hb
  have hx : x.toNat < 16 := x.isLt
  by_contra hlt
  rw [State.advance_reg, State.reg_setRegs _ _ _ (by omega), List.getElem?_eq_none (by omega)] at hr
  simp at hr

/-! ### The program counter -/

/-- The new `PC` of a skip (R16). -/
theorem skipIf_next_pc {c : Bool} {s t : State} (h : Host.Outcome.next (s.skipIf c) = (.next t : Result)) :
    t.pc = if c then s.pc + 4#16 else s.pc + 2#16 := by
  cases h
  rw [State.skipIf_eq, State.jumpTo_pc]

/-! ### Errors -/

/-- An error of a cycle leaves the state as it was (R176). -/
theorem applyEvent_cycle_err {s : State} {k : Fault} (h : (applyEvent s .cycle).2 = .err k) :
    (applyEvent s .cycle).1 = s := by
  unfold applyEvent at h ⊢
  rcases hs : step s with t | k' | r
  · simp [hs] at h
  · rfl
  · rfl

end Sys2Proof.Machine

/-! SUPPORT. The statements about one instruction: who writes which field, and the new `PC` (10_state.md R16, R33). -/

namespace Sys2Proof

open Machine Claims

/-- Settles O22: by the footprint of the instruction. -/
theorem memoryAndDisplayWriters : Obligations.MemoryAndDisplayWriters := by
  intro i s t h
  cases exec_footprint h with
  | display hi => exact ⟨.inr fun _ => rfl, .inl hi⟩
  | memory hi hm => exact ⟨.inl hi, .inr fun _ _ => rfl⟩
  | _ => exact ⟨.inr fun _ => rfl, .inr fun _ _ => rfl⟩

/-- Settles O23: by the footprint of the instruction. -/
theorem stackAndIndexWriters : Obligations.StackAndIndexWriters := by
  intro i s t h
  cases exec_footprint h with
  | call hs => exact ⟨.inl (.inr ⟨_, rfl⟩), .inr rfl⟩
  | ret hb => exact ⟨.inl (.inl rfl), .inr rfl⟩
  | index hi => exact ⟨.inr ⟨rfl, fun _ => rfl⟩, .inl hi⟩
  | _ => exact ⟨.inr ⟨rfl, fun _ => rfl⟩, .inr rfl⟩

/-- Settles O24: by the footprint of the instruction. -/
theorem timerKeypadConfigAndRandWriters : Obligations.TimerKeypadConfigAndRandWriters := by
  intro i s t h
  have hd := (exec_footprint h).randPos
  cases exec_footprint h with
  | setDelay => exact ⟨.inl ⟨_, rfl⟩, .inr rfl, .inr rfl, rfl, rfl, rfl, hd⟩
  | setSound => exact ⟨.inr rfl, .inl ⟨_, rfl⟩, .inr rfl, rfl, rfl, rfl, hd⟩
  | waitKey => exact ⟨.inr rfl, .inr rfl, .inl ⟨_, rfl⟩, rfl, rfl, rfl, hd⟩
  | _ => exact ⟨.inr rfl, .inr rfl, .inr rfl, rfl, rfl, rfl, hd⟩

/-- Settles O25: each register change is traced to the write that makes it. -/
theorem registerWriters : Obligations.RegisterWriters := by
  intro i s t h
  refine ⟨fun r hr => ?_, ?_⟩
  · cases i with
    | loadImm x kk | addImm x kk | random x kk | move x y | or x y | and x y | xor x y | readDelay x =>
      obtain rfl := writeResult_changes h hr
      simp
    | addReg x y | subReg x y | subnReg x y | shiftRight x y | shiftLeft x y =>
      obtain rfl | rfl := writeResultFlag_changes h hr <;> simp
    | loadRegisters x => simpa using loadRegisters_changes h hr
    | draw x y n =>
      obtain ⟨sprite, -, rfl⟩ := exec_draw_next h
      obtain rfl : r = 0xF#4 := by
        by_contra hx
        simp [hx] at hr
      simp
    | ret =>
      obtain ⟨-, hb, rfl⟩ := exec_ret_next h
      exact absurd rfl hr
    | call nnn =>
      obtain ⟨hs, rfl⟩ := exec_call_next h
      exact absurd rfl hr
    | storeBCD x | storeRegisters x =>
      obtain ⟨m, -, rfl⟩ := storeAtI_next h
      exact absurd rfl hr
    | nativeCall nnn => cases h
    | skipEqImm x kk | skipNeqImm x kk | skipEqReg x y | skipNeqReg x y | skipIfKeyDown x | skipIfKeyUp x =>
      cases h
      simp at hr
    | _ =>
      cases h
      exact absurd rfl hr
  · rintro (⟨x, y, n, rfl⟩ | ⟨x, y, rfl | rfl | rfl | rfl | rfl⟩)
    · obtain ⟨sprite, -, rfl⟩ := exec_draw_next h
      simpa using flagByte_eq_zero_or_one _
    all_goals exact writeResultFlag_flag h

/-- Settles O13: instruction by instruction; an error and a suspension keep the whole state. -/
theorem programCounterOfEveryInstruction : Obligations.ProgramCounterOfEveryInstruction := by
  refine ⟨fun i s t h => ?_, fun s k h => by rw [applyEvent_cycle_err h], fun s hw => ?_⟩
  · cases i with
    | ret =>
      obtain ⟨h0, hb, rfl⟩ := exec_ret_next h
      simp [pop_of_pos h0 hb]
    | call nnn =>
      obtain ⟨hs, rfl⟩ := exec_call_next h
      rfl
    | draw x y n =>
      obtain ⟨sprite, -, rfl⟩ := exec_draw_next h
      rfl
    | storeBCD x | storeRegisters x =>
      obtain ⟨m, -, rfl⟩ := storeAtI_next h
      rfl
    | loadRegisters x =>
      obtain ⟨bs, -, rfl⟩ := exec_loadRegisters_next h
      simp
    | nativeCall nnn => cases h
    | skipIfKeyUp x =>
      have hp := skipIf_next_pc h
      cases hk : keyDown s (s.reg x) <;> simpa [hk] using hp
    | skipEqImm x kk | skipNeqImm x kk | skipEqReg x y | skipNeqReg x y | skipIfKeyDown x =>
      simpa using skipIf_next_pc h
    | _ =>
      cases h
      rfl
  · obtain ⟨x, hx⟩ := Option.isSome_iff_exists.1 hw
    simp only [applyEvent, step, cycle_suspended hx]

end Sys2Proof

/-! SUPPORT. What every step and every event keeps (10_state.md R17, R32; 40_cycle_and_interface.md R80). -/

namespace Sys2Proof.Machine

open Claims

/-! ### The invariant -/

/-- Memory after reset is canonical for every program that reset accepts (R56, R175). -/
theorem resetMemory_wf {program : List Byte} (font : Config.Font) (h : program.length ≤ Config.progMax) :
    (resetMemory program font).wf := by
  have hfont : (Memory.putAll [] Config.fontBase font.toList).wf :=
    Memory.putAll_wf Memory.nil_wf _ _ (by simp only [Vector.length_toList]; decide)
  exact Memory.putAll_wf hfont _ _ (by simp only [Config.progBase, Config.memSize, Config.progMax] at h ⊢; omega)

/-- All that a reset event that builds a machine does (R200). -/
theorem resetEvent_ok {program : List Byte} {font : Config.Font} {qShift qJump : Bool} {randPos : Nat} {t : State}
    (h : resetEvent program font qShift qJump randPos = .ok t) :
    program.length ≤ Config.progMax ∧ t = { State.reset with
      mem := resetMemory program font, qShift := qShift, qJump := qJump, randPos := randPos } := by
  unfold resetEvent at h
  split at h <;> cases h
  next hlen => exact ⟨Nat.not_lt.1 hlen, rfl⟩

/-- A freshly reset machine with a canonical memory meets the invariant: `PC` is 0x200 and the stack is empty (R32). -/
theorem reset_inv {m : Memory} (hm : m.wf) (qShift qJump : Bool) (randPos : Nat) :
    ({ State.reset with mem := m, qShift := qShift, qJump := qJump, randPos := randPos } : State).Inv :=
  ⟨hm, by simp [State.reset], fun k hk => absurd hk (Nat.not_lt_zero _)⟩

/-- A reset that builds a machine builds one that meets the invariant (R17, R200). -/
theorem resetEvent_inv {program : List Byte} {font : Config.Font} {qShift qJump : Bool} {randPos : Nat} {t : State}
    (h : resetEvent program font qShift qJump randPos = .ok t) : t.Inv := by
  obtain ⟨hlen, rfl⟩ := resetEvent_ok h
  exact reset_inv (resetMemory_wf font hlen) _ _ _

/-- All that an instruction can do to `PC`: go on by 2 or 4, jump to an address of at most 0x10FE, or return to a live
return address (R16, R17). -/
theorem exec_pc_cases {i : Instr} {s t : State} (h : exec i s = .next t) :
    t.pc = s.pc + 2#16 ∨ t.pc = s.pc + 4#16 ∨ t.pc.toNat ≤ 0x10FE ∨
      ∃ k : Fin Config.stackDepth, k.val < s.sp.val ∧ t.pc = s.stack[k] := by
  have hpc := programCounterOfEveryInstruction.1 i s t h
  cases i with
  | jump nnn | call nnn =>
    have := nnn.isLt
    refine .inr (.inr (.inl ?_))
    rw [hpc]
    simp
    omega
  | jumpOffset nnn x =>
    refine .inr (.inr (.inl ?_))
    rw [hpc]
    generalize (if s.qJump then s.reg x else s.reg 0x0#4) = b
    have := nnn.isLt
    have := b.isLt
    simp
    omega
  | ret =>
    obtain ⟨h0, hb, rfl⟩ := exec_ret_next h
    exact .inr (.inr (.inr ⟨⟨s.sp.val - 1, hb⟩, Nat.sub_lt h0 Nat.one_pos, rfl⟩))
  | skipEqImm x kk | skipNeqImm x kk | skipEqReg x y | skipNeqReg x y | skipIfKeyDown x | skipIfKeyUp x =>
    simp only at hpc
    split at hpc
    · simp [hpc]
    · simp [hpc]
  | _ => exact .inl hpc

/-- An instruction that a cycle executes keeps the invariant; a cycle executes one only where it can fetch, at a `PC` of at
most 0xFFE (R17, R45). -/
theorem exec_inv {i : Instr} {s t : State} (hi : s.Inv) (hf : s.pc.toNat ≤ 0xFFE) (h : exec i s = .next t) : t.Inv := by
  obtain ⟨hmem, -, hstack⟩ := hi
  have hpc : t.pc.toNat ≤ 0x10FE := by
    obtain e | e | hle | ⟨k, hk, e⟩ := exec_pc_cases h
    · rw [e, BitVec.toNat_add]; simp; omega
    · rw [e, BitVec.toNat_add]; simp; omega
    · exact hle
    · rw [e]; have := hstack k hk; omega
  cases exec_footprint h with
  | memory hi hm => exact ⟨hm hmem, hpc, hstack⟩
  | ret hb => exact ⟨hmem, hpc, fun k hk => hstack k (by simp at hk; omega)⟩
  | call hs =>
    refine ⟨hmem, hpc, fun k hk => ?_⟩
    by_cases hks : s.sp.val = k.val
    · simp [hks, BitVec.toNat_add]; omega
    · simpa [hks] using hstack k (by simp at hk; omega)
  | _ => exact ⟨hmem, hpc, hstack⟩

/-- All that a step that completes can be: empty, or an instruction fetched at a `PC` of at most 0xFFE (R45, R81, R82). -/
theorem step_next_cases {s t : State} (h : step s = .next t) : t = s ∨ ∃ i, s.pc.toNat ≤ 0xFFE ∧ exec i s = .next t := by
  obtain ⟨x, -, e⟩ | ⟨-, -, e⟩ | ⟨raw, err, -, -, -, e⟩ | ⟨raw, i, -, hf, -, e⟩ := step_cases s <;> rw [e] at h
  · cases h
    exact .inl rfl
  · cases h
  · cases h
  · have hpc : ¬ 0xFFE < s.pc.toNat := fun hlt => by simp [fetch_eq_none.2 hlt] at hf
    exact .inr ⟨i, Nat.not_lt.1 hpc, h⟩

/-- A step keeps the invariant (R17). -/
theorem step_inv {s t : State} (hi : s.Inv) (h : step s = .next t) : t.Inv := by
  obtain rfl | ⟨i, hf, hx⟩ := step_next_cases h
  · exact hi
  · exact exec_inv hi hf hx

/-- A key event changes at most the registers and the wait latch (R167). -/
theorem keyEvent_eq (k : Nibble) (s : State) : ∃ v w, keyEvent k s = { s with v := v, wait := w } := by
  unfold keyEvent
  split
  · exact ⟨_, _, rfl⟩
  · exact ⟨s.v, s.wait, rfl⟩

/-- Every event keeps the invariant. -/
theorem applyEvent_inv {s : State} (e : Event) (hi : s.Inv) : (applyEvent s e).1.Inv := by
  cases e with
  | reset program font qShift qJump =>
    simp only [applyEvent]
    split
    · exact hi
    · next t ht => exact resetEvent_inv ht
  | cycle =>
    simp only [applyEvent]
    split
    · next t ht => exact step_inv hi ht
    · exact hi
    · exact hi
  | tick =>
    obtain ⟨d, b, h⟩ := tick_eq s
    simp only [applyEvent, h]
    exact ⟨hi.mem_wf, hi.pc_le, hi.stack_le⟩
  | setKeys keys => exact ⟨hi.mem_wf, hi.pc_le, hi.stack_le⟩
  | keyEvent k =>
    obtain ⟨v, w, h⟩ := keyEvent_eq k s
    simp only [applyEvent, h]
    exact ⟨hi.mem_wf, hi.pc_le, hi.stack_le⟩

/-! ### Runs (R53) -/

/-- What every allowed event keeps, every run of allowed events keeps. -/
theorem runEvents_keeps {P : State → Prop} {es : List Event} (h : ∀ s, ∀ e ∈ es, P s → P (applyEvent s e).1) {s : State}
    (hs : P s) : P (runEvents s es).1 := by
  induction es generalizing s with
  | nil => exact hs
  | cons e es ih =>
    exact ih (fun u e' he' => h u e' (List.mem_cons_of_mem _ he')) (h s e List.mem_cons_self hs)

/-! ### A suspended machine (R27, R82, R188) -/

/-- `s` but for the pressed keys and for timers that may have counted down. -/
def IdledFrom (s u : State) : Prop :=
  ∃ d b k, u = { s with dt := d, st := b, keys := k } ∧ d.toNat ≤ s.dt.toNat ∧ b.toNat ≤ s.st.toNat

/-- An event that is no key event and no reset leaves a suspended machine idle (R82). -/
theorem IdledFrom.after_event {s u : State} {x : RegNum} {e : Event} (hw : s.wait = some x) (hr : NotReset e)
    (hk : NotKeyEvent e) (h : IdledFrom s u) : IdledFrom s (applyEvent u e).1 := by
  obtain ⟨d, b, k, rfl, hd, hb⟩ := h
  cases e with
  | reset p f q q' => exact absurd rfl (hr p f q q')
  | keyEvent k' => exact absurd rfl (hk k')
  | setKeys keys => exact ⟨d, b, keys, rfl, hd, hb⟩
  | cycle =>
    have hs : step { s with dt := d, st := b, keys := k } = .next { s with dt := d, st := b, keys := k } := cycle_suspended hw
    simp only [applyEvent, hs]
    exact ⟨d, b, k, rfl, hd, hb⟩
  | tick =>
    have hdt := tick_dt { s with dt := d, st := b, keys := k }
    have hst := tick_st { s with dt := d, st := b, keys := k }
    obtain ⟨d', b', h⟩ := tick_eq { s with dt := d, st := b, keys := k }
    simp only [h] at hdt hst
    simp only [applyEvent, h]
    exact ⟨d', b', k, rfl, by omega, by omega⟩

/-! ### The pressed keys (R26, R166) -/

/-- A step keeps the pressed keys (R26). -/
theorem step_keys {s t : State} (h : step s = .next t) : t.keys = s.keys := by
  obtain rfl | ⟨i, -, hx⟩ := step_next_cases h
  · rfl
  · obtain ⟨-, -, -, hkeys, -⟩ := timerKeypadConfigAndRandWriters i s t hx
    exact hkeys

/-! ### Reset (R32, R200 to R202) -/

/-- A reset event with a program that fits (R200). -/
theorem applyEvent_reset_of_le (s : State) {program : List Byte} (font : Config.Font) (qShift qJump : Bool)
    (h : program.length ≤ Config.progMax) :
    applyEvent s (.reset program font qShift qJump) = ({ State.reset with
      mem := resetMemory program font, qShift := qShift, qJump := qJump, randPos := s.randPos }, .resetOk) := by
  simp only [applyEvent, resetEvent, if_neg (Nat.not_lt.2 h)]

/-- Loading the bytes that are there already into the empty memory leaves it empty. -/
theorem putAll_nil_of_initialByte {a : Nat} {bs : List Byte} (h : ∀ k (hk : k < bs.length), bs[k] = Memory.initialByte (a + k)) :
    Memory.putAll [] a bs = [] := by
  induction bs generalizing a with
  | nil => rfl
  | cons b bs ih =>
    have hb : b = Memory.initialByte a := h 0 (by simp)
    rw [Memory.putAll, Memory.put, if_pos hb]
    refine ih fun k hk => ?_
    rw [show a + 1 + k = a + (k + 1) by omega]
    exact h (k + 1) (Nat.succ_lt_succ hk)

/-- The reset memory with no program and the default font lists nothing (log 4, log 5). -/
theorem resetMemory_default : resetMemory [] Config.defaultFont = [] := by
  simp only [resetMemory, Memory.putAll]
  refine putAll_nil_of_initialByte fun k hk => ?_
  have hk' : k < 80 := by simpa using hk
  simp [Memory.initialByte, hk']

end Sys2Proof.Machine

namespace Sys2Proof

open Machine Claims

/-- Settles O17: by the new `PC` and the footprint of the instruction executed. -/
theorem stepKeepsTheInvariant : Obligations.StepKeepsTheInvariant := fun _ _ => step_inv

/-- Settles O19: every event keeps the invariant, so every run does. -/
theorem everyRunKeepsTheInvariant : Obligations.EveryRunKeepsTheInvariant :=
  fun _ _ hi => runEvents_keeps (fun _ e _ => applyEvent_inv e) hi

/-- Settles O18: the reset memory is canonical, and the rest is R32. -/
theorem resetHasTheInvariant : Obligations.ResetHasTheInvariant :=
  ⟨reset_inv Memory.nil_wf _ _ _, fun _ _ _ _ _ _ => resetEvent_inv⟩

/-- Settles O54: through the allowed events a suspended machine idles. -/
theorem suspensionEndsOnlyByKeyEventOrReset : Obligations.SuspensionEndsOnlyByKeyEventOrReset := by
  rintro es s t x hw hes rfl
  have hidle : IdledFrom s (runEvents s es).1 :=
    runEvents_keeps (fun u e he => .after_event hw (hes e he).1 (hes e he).2) ⟨s.dt, s.st, s.keys, rfl, le_rfl, le_rfl⟩
  obtain ⟨d, b, k, h, hd, hb⟩ := hidle
  rw [h]
  exact ⟨hw, fun _ => rfl, rfl, rfl, fun _ => rfl, ⟨rfl, fun _ => rfl⟩, fun _ _ => rfl, ⟨rfl, rfl, rfl⟩, hd, hb⟩

/-- Settles O52: event by event. -/
theorem setKeysReplacesTheSet : Obligations.SetKeysReplacesTheSet := by
  refine ⟨fun s keys => ⟨rfl, rfl, rfl, rfl⟩, fun s e hr hk => ?_⟩
  cases e with
  | reset p f q q' => exact absurd rfl (hr p f q q')
  | setKeys keys => exact absurd rfl (hk keys)
  | cycle =>
    simp only [applyEvent]
    split
    · next t ht => exact step_keys ht
    · rfl
    · rfl
  | tick =>
    obtain ⟨d, b, h⟩ := tick_eq s
    simp only [applyEvent, h]
  | keyEvent k =>
    obtain ⟨v, w, h⟩ := keyEvent_eq k s
    simp only [applyEvent, h]

/-- Settles O56: R32's values, read off the state that a reset builds. -/
theorem resetLeavesTheListedValues : Obligations.ResetLeavesTheListedValues := by
  refine ⟨fun s program font qShift qJump t hlen ht => ?_, fun s s' program font qShift qJump hlen => ?_, ?_⟩
  · rw [applyEvent_reset_of_le s font qShift qJump hlen] at ht ⊢
    subst ht
    refine ⟨rfl, fun r => ?_, rfl, rfl, rfl, pixel_allBlack, rfl, rfl, rfl, rfl, rfl, rfl, rfl⟩
    simp [State.reg, State.reset]
  · rw [applyEvent_reset_of_le s font qShift qJump hlen, applyEvent_reset_of_le s' font qShift qJump hlen]
  · simp only [resetEvent, resetMemory_default]
    rfl

end Sys2Proof

/-! SUPPORT. What no instruction observes: the sound timer (10_state.md R25), the stack entries at the depth and above (R19), and,
Random apart, the place in RAND (R30). Two states that differ in these three fields alone step side by side. -/

namespace Sys2Proof.Machine

open Claims

/-! ### Two results side by side -/

/-- Both results are next states that `R` relates, or both are the same error or refusal. -/
inductive Agree (R : State → State → Prop) : Result → Result → Prop where
  | next {s t} (h : R s t) : Agree R (.next s) (.next t)
  | fault (k) : Agree R (.fault k) (.fault k)
  | refused (r) : Agree R (.refused r) (.refused r)

/-- A weaker relation of the next states. -/
theorem Agree.mono {R R' : State → State → Prop} {a b : Result} (h : Agree R a b)
    (hR : ∀ s t, a = .next s → R s t → R' s t) : Agree R' a b := by
  cases h with
  | next h => exact .next (hR _ _ rfl h)
  | fault k => exact .fault k
  | refused r => exact .refused r

/-- The other side of a next state. -/
theorem Agree.of_next {R : State → State → Prop} {s : State} {b : Result} (h : Agree R (.next s) b) :
    ∃ t, b = .next t ∧ R s t := by
  cases h with
  | next h => exact ⟨_, rfl, h⟩

/-- The other side of an error. -/
theorem Agree.of_fault {R : State → State → Prop} {k : Fault} {b : Result} (h : Agree R (.fault k) b) : b = .fault k := by
  cases h
  rfl

/-- The instruction that a running cycle executes is the decoded word (R81). -/
theorem nextInstr_decoded {s : State} {raw : Word} {i : Instr} (hw : s.wait = none) (hf : fetch s = some raw)
    (hd : decode raw = .ok i) : nextInstr s = some i := by
  simp only [nextInstr, hw, hf, hd]
  rfl

/-- Two machines that wait alike and fetch alike step side by side, when the instruction that they execute does. -/
theorem step_agree {R : State → State → Prop} {s t : State} (hR : R s t) (hwait : t.wait = s.wait) (hfetch : fetch t = fetch s)
    (hexec : ∀ i, nextInstr s = some i → Agree R (exec i s) (exec i t)) : Agree R (step s) (step t) := by
  obtain ⟨x, hw, e⟩ | ⟨hw, hf, e⟩ | ⟨raw, err, hw, hf, hd, e⟩ | ⟨raw, i, hw, hf, hd, e⟩ := step_cases s <;> rw [e]
  · rw [step, cycle_suspended (hwait.trans hw)]
    exact .next hR
  · rw [step, cycle_fetch_none (hwait.trans hw) (hfetch.trans hf)]
    exact .fault _
  · rw [step, cycle_rejected (hwait.trans hw) (hfetch.trans hf) hd]
    exact .fault _
  · rw [step, cycle_decoded (hwait.trans hw) (hfetch.trans hf) hd]
    exact hexec i (nextInstr_decoded hw hf hd)

/-! ### The three fields that are not observed -/

/-- The stack entries, the sound timer and the place in RAND changed, each by a function of its own. -/
def State.mapHidden (K : Vector Word Config.stackDepth → Vector Word Config.stackDepth) (B : Byte → Byte) (N : Nat → Nat)
    (s : State) : State :=
  { s with stack := K s.stack, st := B s.st, randPos := N s.randPos }

section

variable {K : Vector Word Config.stackDepth → Vector Word Config.stackDepth} {B : Byte → Byte} {N : Nat → Nat}

@[simp] theorem mapHidden_mem (s : State) : (s.mapHidden K B N).mem = s.mem := rfl
@[simp] theorem effAddr_mapHidden (s : State) (k : Nat) : effAddr (s.mapHidden K B N) k = effAddr s k := rfl

/-- A skip does not observe the hidden fields. -/
theorem skipIf_mapHidden (s : State) (c : Bool) : (s.mapHidden K B N).skipIf c = (s.skipIf c).mapHidden K B N := by
  cases c <;> rfl

/-- A block write of registers does not observe the hidden fields. -/
theorem setRegs_mapHidden (s : State) (k : Nat) (bs : List Byte) :
    (s.mapHidden K B N).setRegs k bs = (s.setRegs k bs).mapHidden K B N := by
  induction bs generalizing s k with
  | nil => rfl
  | cons b bs ih => exact ih (s.setReg (BitVec.ofNat 4 k) b) (k + 1)

/-- A store at `I` does not observe the hidden fields. -/
theorem storeAtI_mapHidden (bs : List Byte) (s : State) :
    Agree (fun t t' => t' = t.mapHidden K B N) (storeAtI bs s) (storeAtI bs (s.mapHidden K B N)) := by
  simp only [storeAtI, mapHidden_mem, effAddr_mapHidden]
  cases s.mem.writeBlock (effAddr s 0) bs with
  | none => exact .fault _
  | some m => exact .next rfl

/-- An instruction does not observe the hidden fields, unless it is one that works on the field: Call and Return on the stack,
SetSound on `ST`, Random on the place in RAND. -/
theorem exec_mapHidden {i : Instr} (hK : (i = .ret ∨ ∃ nnn, i = .call nnn) → K = id) (hB : (∃ x, i = .setSound x) → B = id)
    (hN : (∃ x kk, i = .random x kk) → N = id) (s : State) :
    Agree (fun t t' => t' = t.mapHidden K B N) (exec i s) (exec i (s.mapHidden K B N)) := by
  cases i with
  | call nnn =>
    obtain rfl := hK (.inr ⟨nnn, rfl⟩)
    obtain hf | hs := sp_full_or_lt s
    · rw [exec_call_of_full nnn hf, exec_call_of_full nnn (s := s.mapHidden id B N) hf]
      exact .fault _
    · rw [exec_call_of_lt nnn hs, exec_call_of_lt nnn (s := s.mapHidden id B N) hs]
      exact .next rfl
  | ret =>
    obtain rfl := hK (.inl rfl)
    obtain hz | ⟨h0, hb⟩ := sp_zero_or_pos s
    · rw [exec_ret_of_zero hz, exec_ret_of_zero (s := s.mapHidden id B N) hz]
      exact .fault _
    · rw [exec_ret_of_pos h0 hb, exec_ret_of_pos (s := s.mapHidden id B N) h0 hb]
      exact .next rfl
  | setSound x =>
    obtain rfl := hB ⟨x, rfl⟩
    exact .next rfl
  | random x kk =>
    obtain rfl := hN ⟨x, kk, rfl⟩
    exact .next rfl
  | nativeCall nnn => exact .fault _
  | skipEqImm x kk | skipNeqImm x kk | skipEqReg x y | skipNeqReg x y | skipIfKeyDown x | skipIfKeyUp x =>
    exact .next (skipIf_mapHidden s _)
  | storeBCD x | storeRegisters x => exact storeAtI_mapHidden _ s
  | loadRegisters x =>
    simp only [exec, execLoadRegisters, mapHidden_mem, effAddr_mapHidden]
    cases s.mem.readBlock (effAddr s 0) (blockLength x) with
    | none => exact .fault _
    | some bs => exact .next (congrArg State.advance (setRegs_mapHidden s 0 bs))
  | draw x y n =>
    simp only [exec, execDraw, mapHidden_mem, effAddr_mapHidden]
    cases s.mem.readBlock (effAddr s 0) n.toNat with
    | none => exact .fault _
    | some sprite => exact .next rfl
  | _ => exact .next rfl

end

/-! ### Dead stack entries (R19) -/

/-- Two states agree on the live entries exactly when one is the other with a stack that does. -/
theorem agreeOnLive_iff {s t : State} : AgreeOnLive s t ↔
    ∃ k : Vector Word Config.stackDepth, t = { s with stack := k } ∧ ∀ j : Fin 16, j.val < s.sp.val → k[j] = s.stack[j] := by
  constructor
  · rintro ⟨h, hl⟩
    exact ⟨t.stack, h, hl⟩
  · rintro ⟨k, rfl, hl⟩
    exact ⟨rfl, hl⟩

/-- Return reads a live entry (R21). -/
theorem exec_ret_agreeOnLive {s t : State} (h : AgreeOnLive s t) : Agree AgreeOnLive (exec .ret s) (exec .ret t) := by
  obtain ⟨k, rfl, hl⟩ := agreeOnLive_iff.1 h
  obtain hz | ⟨h0, hb⟩ := sp_zero_or_pos s
  · rw [exec_ret_of_zero hz, exec_ret_of_zero (s := { s with stack := k }) hz]
    exact .fault _
  · have htop : k[s.sp.val - 1] = s.stack[s.sp.val - 1] := hl ⟨s.sp.val - 1, hb⟩ (Nat.sub_lt h0 Nat.one_pos)
    rw [exec_ret_of_pos h0 hb, exec_ret_of_pos (s := { s with stack := k }) h0 hb]
    simp only [htop]
    exact .next ⟨rfl, fun j hj => hl j (Nat.lt_of_lt_of_le hj (Nat.sub_le _ _))⟩

/-- Call writes the one entry that becomes live (R20). -/
theorem exec_call_agreeOnLive {nnn : Imm12} {s t : State} (h : AgreeOnLive s t) :
    Agree AgreeOnLive (exec (.call nnn) s) (exec (.call nnn) t) := by
  obtain ⟨k, rfl, hl⟩ := agreeOnLive_iff.1 h
  obtain hf | hs := sp_full_or_lt s
  · rw [exec_call_of_full nnn hf, exec_call_of_full nnn (s := { s with stack := k }) hf]
    exact .fault _
  · rw [exec_call_of_lt nnn hs, exec_call_of_lt nnn (s := { s with stack := k }) hs]
    refine .next ⟨rfl, fun j hj => ?_⟩
    by_cases hjs : s.sp.val = j.val
    · simp [hjs]
    · have hlt : j.val < s.sp.val := by simp at hj; omega
      simpa [hjs] using hl j hlt

/-- Every instruction keeps the agreement: all but Call and Return do not observe the stack. -/
theorem exec_agreeOnLive (i : Instr) {s t : State} (h : AgreeOnLive s t) : Agree AgreeOnLive (exec i s) (exec i t) := by
  by_cases hi : i = .ret ∨ ∃ nnn, i = .call nnn
  · obtain rfl | ⟨nnn, rfl⟩ := hi
    · exact exec_ret_agreeOnLive h
    · exact exec_call_agreeOnLive h
  · obtain ⟨k, rfl, hl⟩ := agreeOnLive_iff.1 h
    refine (exec_mapHidden (K := fun _ => k) (absurd · hi) (fun _ => rfl) (fun _ => rfl) s).mono fun u u' hu e => ?_
    obtain ⟨hsp, hstack⟩ := (stackAndIndexWriters i s u hu).1.resolve_left hi
    exact agreeOnLive_iff.2 ⟨k, e, fun j hj => (hl j (hsp ▸ hj)).trans (hstack j).symm⟩

/-- A tick does not observe the stack. -/
theorem tick_withStack (s : State) (k : Vector Word Config.stackDepth) :
    tick { s with stack := k } = { tick s with stack := k } := by
  unfold tick
  by_cases hd : s.dt.toNat > 0 <;> by_cases hs : s.st.toNat > 0 <;> simp [hd, hs] <;> rfl

/-- A key event does not observe the stack. -/
theorem keyEvent_withStack (x : Nibble) (s : State) (k : Vector Word Config.stackDepth) :
    keyEvent x { s with stack := k } = { keyEvent x s with stack := k } := by
  rcases hw : s.wait with _ | r
  · simp only [keyEvent, hw]
  · simp only [keyEvent, hw]
    rfl

/-- Every event keeps the agreement and reports alike. -/
theorem applyEvent_agreeOnLive (e : Event) {s t : State} (h : AgreeOnLive s t) :
    (applyEvent s e).2 = (applyEvent t e).2 ∧ AgreeOnLive (applyEvent s e).1 (applyEvent t e).1 := by
  obtain ⟨k, rfl, hl⟩ := agreeOnLive_iff.1 h
  cases e with
  | reset program font qShift qJump =>
    simp only [applyEvent]
    cases resetEvent program font qShift qJump s.randPos with
    | error err => exact ⟨rfl, h⟩
    | ok u => exact ⟨rfl, rfl, fun _ _ => rfl⟩
  | cycle =>
    have hstep := step_agree h rfl rfl fun i _ => exec_agreeOnLive i h
    simp only [applyEvent]
    generalize step s = a at hstep
    generalize step { s with stack := k } = b at hstep
    cases hstep with
    | next hu =>
      obtain ⟨k', rfl, -⟩ := agreeOnLive_iff.1 hu
      exact ⟨rfl, hu⟩
    | fault err => exact ⟨rfl, h⟩
    | refused r => exact ⟨rfl, h⟩
  | tick =>
    obtain ⟨d, b, htick⟩ := tick_eq s
    simp only [applyEvent, tick_withStack, htick]
    exact ⟨trivial, rfl, hl⟩
  | setKeys keys => exact ⟨rfl, rfl, hl⟩
  | keyEvent x =>
    obtain ⟨v, w, hkey⟩ := keyEvent_eq x s
    simp only [applyEvent, keyEvent_withStack, hkey]
    exact ⟨trivial, rfl, hl⟩

end Sys2Proof.Machine

namespace Sys2Proof

open Machine Claims

/-- Settles O21: every instruction but SetSound commutes with a change of `ST`, and SetSound overwrites it. -/
theorem soundTimerIsNeverRead : Obligations.SoundTimerIsNeverRead := by
  intro s b
  have hagree : Agree (fun t t' => ∃ b', t' = t.setST b') (step s) (step (s.setST b)) := by
    refine step_agree ⟨b, rfl⟩ rfl rfl fun i _ => ?_
    by_cases hi : ∃ x, i = .setSound x
    · obtain ⟨x, rfl⟩ := hi
      exact .next ⟨s.reg x, rfl⟩
    · exact (exec_mapHidden (B := fun _ => b) (fun _ => rfl) (absurd · hi) (fun _ => rfl) s).mono fun t t' _ h => ⟨b, h⟩
  refine ⟨fun t h => ?_, fun k h => ?_⟩ <;> rw [h] at hagree
  · obtain ⟨t', ht', b', rfl⟩ := hagree.of_next
    exact ⟨b', ht'⟩
  · exact hagree.of_fault

/-- Settles O59: every instruction but Random commutes with a change of the place in RAND, and Random writes the byte it draws. -/
theorem randIsAnInputOfRandomAlone : Obligations.RandIsAnInputOfRandomAlone := by
  intro s t hst hbyte
  obtain ⟨n, rfl⟩ : ∃ n, t = { s with randPos := n } := ⟨t.randPos, by rw [hst]⟩
  have hagree : Agree (fun u u' => u.toRecord = u'.toRecord) (step s) (step { s with randPos := n }) := by
    refine step_agree hst rfl rfl fun i hnext => ?_
    by_cases hi : ∃ x kk, i = .random x kk
    · obtain ⟨x, kk, rfl⟩ := hi
      have hb : ({ s with randPos := n } : State).drawByte.1 = s.drawByte.1 := (hbyte x kk hnext).symm
      change Agree _ (writeResult x _ _) (writeResult x (({ s with randPos := n } : State).drawByte.1 &&& kk) _)
      rw [hb]
      exact .next rfl
    · exact (exec_mapHidden (N := fun _ => n) (fun _ => rfl) (fun _ => rfl) (absurd · hi) s).mono fun u u' _ h => by rw [h]; rfl
  refine ⟨fun u h => ?_, fun k h => ?_⟩ <;> rw [h] at hagree
  · exact hagree.of_next
  · exact hagree.of_fault

/-- Settles O20: event by event. -/
theorem deadStackEntriesAreUnobservable : Obligations.DeadStackEntriesAreUnobservable := by
  intro es
  induction es with
  | nil => exact fun s t h => ⟨rfl, h⟩
  | cons e es ih =>
    intro s t h
    obtain ⟨hreport, hstate⟩ := applyEvent_agreeOnLive e h
    obtain ⟨hreports, hend⟩ := ih _ _ hstate
    exact ⟨congrArg₂ List.cons hreport hreports, hend⟩

end Sys2Proof

/-! SUPPORT. Byte reads after consecutive writes, and canonical memories as sets of cells (20_memory.md R40, R42, R43, R46, R56). -/

namespace Sys2Proof.Machine.Memory

/-- Inside consecutive puts, a cell reads the byte put there. -/
theorem read_putAll_inside {m : Memory} (hm : m.wf) {a k : Nat} {bs : List Byte} (h : a + bs.length ≤ Config.memSize)
    (hk : k < bs.length) : (m.putAll a bs).read (a + k) = some bs[k] := by
  rw [read_of_lt (by omega), byteAt_putAll m hm a bs h, if_pos (Nat.le_add_right a k)]
  simp [hk]

/-- Outside consecutive puts, a cell reads as before. -/
theorem read_putAll_outside {m : Memory} (hm : m.wf) {a c : Nat} {bs : List Byte} (h : a + bs.length ≤ Config.memSize)
    (hc : ∀ k, k < bs.length → c ≠ a + k) : (m.putAll a bs).read c = m.read c := by
  have hbyte : (m.putAll a bs).byteAt c = m.byteAt c := by
    rw [byteAt_putAll m hm a bs h]
    split
    · next hac =>
      have hlen : bs.length ≤ c - a := by
        by_contra hlt
        exact hc (c - a) (by omega) (by omega)
      rw [List.getElem?_eq_none hlen]
      rfl
    · rfl
  unfold read
  rw [hbyte]

/-- The cells of a canonical memory are those that read otherwise than an unlisted address (log 5). -/
theorem mem_iff_of_wf {m : Memory} (hm : m.wf) (a : Nat) (b : Byte) :
    (a, b) ∈ m ↔ m.read a = some b ∧ b ≠ initialByte a := by
  obtain ⟨hsorted, hcells⟩ := hm
  rw [read_eq_some_iff]
  constructor
  · intro hc
    obtain ⟨ha, hb⟩ := hcells _ hc
    exact ⟨⟨ha, byteAt_of_mem hsorted hc⟩, hb⟩
  · rintro ⟨⟨-, rfl⟩, hb⟩
    obtain ⟨b', hc⟩ : ∃ b', (a, b') ∈ m := by
      by_contra habsent
      exact hb (byteAt_of_absent (not_exists.1 habsent))
    rwa [byteAt_of_mem hsorted hc]

/-- A list with addresses strictly rising has no cell twice. -/
theorem nodup_of_rising {m : Memory} (h : m.Pairwise (fun c d => c.1 < d.1)) : m.Nodup :=
  h.imp fun hlt heq => hlt.ne (congrArg Prod.fst heq)

/-- Canonical memories that read alike are the same list (R40). -/
theorem eq_of_read_eq {m m' : Memory} (hm : m.wf) (hm' : m'.wf) (h : ∀ a, m.read a = m'.read a) : m = m' := by
  have hcells : ∀ c, c ∈ m ↔ c ∈ m' := fun ⟨a, b⟩ => by rw [mem_iff_of_wf hm, mem_iff_of_wf hm', h a]
  have hperm : m.Perm m' := (List.perm_ext_iff_of_nodup (nodup_of_rising hm.1) (nodup_of_rising hm'.1)).2 hcells
  exact hperm.eq_of_pairwise (fun _ _ _ _ hlt hgt => absurd hlt hgt.asymm) hm.1 hm'.1

/-- What an unlisted address outside the font reads as (R32, R50). -/
theorem initialByte_of_not_font {a : Nat} (h : ¬ (0x050 ≤ a ∧ a ≤ 0x09F)) : initialByte a = 0x00#8 := by
  have hfont : ¬ (Config.fontBase ≤ a ∧ a - Config.fontBase < Config.fontSize) := by
    simp only [Config.fontBase, Config.fontSize]
    omega
  exact dif_neg hfont

end Sys2Proof.Machine.Memory

namespace Sys2Proof.Machine

/-! ### Memory after reset, region by region (R56) -/

/-- The font table lies inside memory (R31). -/
theorem font_fits (font : Config.Font) : Config.fontBase + font.toList.length ≤ Config.memSize := by
  simp only [Vector.length_toList]
  decide

/-- A program that reset accepts lies inside memory (R56, R175). -/
theorem program_fits {program : List Byte} (h : program.length ≤ Config.progMax) :
    Config.progBase + program.length ≤ Config.memSize := by
  simp only [Config.progBase, Config.memSize, Config.progMax] at h ⊢
  omega

/-- The font loaded into the empty memory is canonical. -/
theorem fontMemory_wf (font : Config.Font) : (Memory.putAll [] Config.fontBase font.toList).wf :=
  Memory.putAll_wf Memory.nil_wf _ _ (font_fits font)

section

variable {program : List Byte} (h : program.length ≤ Config.progMax) (font : Config.Font)
include h

/-- Outside the program, memory after reset reads as the font loaded into the empty memory. -/
theorem read_resetMemory_outside_program {a : Nat} (ha : ∀ k, k < program.length → a ≠ Config.progBase + k) :
    (resetMemory program font).read a = (Memory.putAll [] Config.fontBase font.toList).read a :=
  Memory.read_putAll_outside (fontMemory_wf font) (program_fits h) ha

/-- Font byte `k` is at 0x050 + `k` (R56). -/
theorem read_resetMemory_font (k : Fin 80) :
    (resetMemory program font).read (Config.fontBase + k.val) = some font[k] := by
  rw [read_resetMemory_outside_program h font fun j _ => by simp only [Config.fontBase, Config.progBase]; omega,
    Memory.read_putAll_inside Memory.nil_wf (font_fits font) (by simp)]
  simp

/-- Program byte `k` is at 0x200 + `k` (R56). -/
theorem read_resetMemory_program {k : Nat} (hk : k < program.length) :
    (resetMemory program font).read (Config.progBase + k) = some program[k] :=
  Memory.read_putAll_inside (fontMemory_wf font) (program_fits h) hk

/-- Every other byte is zero (R32, R50). -/
theorem read_resetMemory_elsewhere {a : Nat} (ha : a < Config.memSize) (hfont : ¬ (0x050 ≤ a ∧ a ≤ 0x09F))
    (hprogram : ¬ (0x200 ≤ a ∧ a < 0x200 + program.length)) : (resetMemory program font).read a = some 0x00#8 := by
  have hout : ∀ j, j < font.toList.length → a ≠ Config.fontBase + j := fun j hj => by
    simp only [Config.fontBase, Config.fontSize, Vector.length_toList] at hj ⊢
    omega
  rw [read_resetMemory_outside_program h font fun j _ => by simp only [Config.progBase]; omega,
    Memory.read_putAll_outside Memory.nil_wf (font_fits font) hout, Memory.read_of_lt ha]
  exact congrArg some (Memory.initialByte_of_not_font hfont)

end

end Sys2Proof.Machine

namespace Sys2Proof

open Machine

/-- Settles O45: the bounds of the two operations, and what one put leaves in each cell. -/
theorem readAfterWrite : Obligations.ReadAfterWrite := by
  intro m a b hm
  refine ⟨fun ha => ?_, fun ha => ?_⟩
  · have ha' : a < Config.memSize := Nat.lt_succ_of_le ha
    refine ⟨⟨_, Memory.read_of_lt ha'⟩, m.put a b, if_pos ha', Memory.put_wf hm ha' b, fun c => ?_⟩
    by_cases hc : c = a
    · subst hc
      simp [Memory.read_of_lt ha', Memory.byteAt_put m hm.1]
    · simp [Memory.read, Memory.byteAt_put m hm.1, hc]
  · exact ⟨Memory.read_of_ge ha, if_neg (Nat.not_lt.2 ha)⟩

/-- Settles O46: the cells of a canonical memory are determined by what it reads. -/
theorem memoriesThatReadAlikeAreEqual : Obligations.MemoriesThatReadAlikeAreEqual :=
  fun _ _ hm hm' h => Memory.eq_of_read_eq hm hm' h

/-- Settles O55: the length decides between the error and the load, and the load is read back region by region. -/
theorem resetLoadsMemory : Obligations.ResetLoadsMemory := by
  intro program font qShift qJump randPos
  refine ⟨fun hlen => ?_, fun hlen => ?_⟩
  · have herr : ∀ n, resetEvent program font qShift qJump n = .error .programTooLarge := fun _ => if_pos hlen
    exact ⟨herr _, fun s => by simp only [applyEvent, herr]⟩
  · exact ⟨_, if_neg (Nat.not_lt.2 hlen), read_resetMemory_font hlen font, fun _ => read_resetMemory_program hlen font,
      fun _ => read_resetMemory_elsewhere hlen font⟩

end Sys2Proof

/-! SUPPORT. The decoder as a whole: every answer it can give, and the instruction it reads from an encoded word
(30_encoding.md R65, R66, R68, R71). -/

namespace Sys2Proof

/-! ### The word of a family and of the fields below it -/

theorem packNNN_of_fieldN1 {raw : Word} {a : Nibble} (h : fieldN1 raw = a) : packNNN a (fieldNNN raw) = raw :=
  h ▸ packNNN_fields raw

theorem packXKK_of_fieldN1 {raw : Word} {a : Nibble} (h : fieldN1 raw = a) : packXKK a (fieldX raw) (fieldKK raw) = raw :=
  h ▸ packXKK_fields raw

theorem packXKK_of_fields {raw : Word} {a : Nibble} {k : Byte} (h : fieldN1 raw = a) (hk : fieldKK raw = k) :
    packXKK a (fieldX raw) k = raw :=
  hk ▸ packXKK_of_fieldN1 h

theorem packXYN_of_fieldN1 {raw : Word} {a : Nibble} (h : fieldN1 raw = a) :
    packXYN a (fieldX raw) (fieldY raw) (fieldN raw) = raw :=
  h ▸ packXYN_fields raw

theorem packXYN_of_fields {raw : Word} {a n : Nibble} (h : fieldN1 raw = a) (hn : fieldN raw = n) :
    packXYN a (fieldX raw) (fieldY raw) n = raw :=
  hn ▸ packXYN_of_fieldN1 h

theorem packNNN_ne {a : Nibble} {b c : Imm12} (h : b ≠ c) : packNNN a b ≠ packNNN a c := fun he =>
  h (by simpa using congrArg fieldNNN he)

/-! ### The two rows whose terms need not be well-formed (R64, R67) -/

theorem wellFormed_nativeCall_iff {nnn : Imm12} : (Instr.nativeCall nnn).WellFormed ↔ nnn ≠ 0x0E0#12 ∧ nnn ≠ 0x0EE#12 := by
  simp [Instr.WellFormed, Instr.wellFormed]

theorem wellFormed_jumpOffset_iff {nnn : Imm12} {x : RegNum} :
    (Instr.jumpOffset nnn x).WellFormed ↔ x = nnn.extractLsb 11 8 := by
  simp [Instr.WellFormed, Instr.wellFormed]

/-! ### All that the decoder can answer -/

/-- An answer the decoder may give to `raw`: a well-formed instruction whose word is `raw`, or UnknownInstruction(raw). -/
inductive ReadsAs (raw : Word) : Except DecodeError Instr → Prop where
  | row {i} (hwf : i.WellFormed) (hword : encode i = raw) : ReadsAs raw (.ok i)
  | unknown : ReadsAs raw (.error (.unknownInstruction raw))

/-- Family 0: the two literal rows take their words from `0NNN` (R66, R67). -/
theorem decode_family0_readsAs {raw : Word} (h : fieldN1 raw = 0x0#4) : ReadsAs raw (decode raw) := by
  rw [decode_family0 h]
  have hword := packNNN_of_fieldN1 h
  split
  · next h0 => exact .row rfl h0.symm
  split
  · next h0 => exact .row rfl h0.symm
  · next hcls hret =>
    refine .row (wellFormed_nativeCall_iff.2 ⟨fun he => hcls ?_, fun he => hret ?_⟩) hword
    · rw [← hword, he]; rfl
    · rw [← hword, he]; rfl

/-- Family 8 (R65). -/
theorem decodeFamily8_readsAs {raw : Word} (h : fieldN1 raw = 0x8#4) : ReadsAs raw (decodeFamily8 raw) := by
  simp only [decodeFamily8]
  split_ifs
  case neg => exact .unknown
  all_goals exact .row rfl (packXYN_of_fields h (by assumption))

/-- Family E (R65). -/
theorem decodeFamilyE_readsAs {raw : Word} (h : fieldN1 raw = 0xE#4) : ReadsAs raw (decodeFamilyE raw) := by
  simp only [decodeFamilyE]
  split_ifs
  case neg => exact .unknown
  all_goals exact .row rfl (packXKK_of_fields h (by assumption))

/-- Family F (R65). -/
theorem decodeFamilyF_readsAs {raw : Word} (h : fieldN1 raw = 0xF#4) : ReadsAs raw (decodeFamilyF raw) := by
  simp only [decodeFamilyF]
  split_ifs
  case neg => exact .unknown
  all_goals exact .row rfl (packXKK_of_fields h (by assumption))

/-- All that the decoder can answer (R65, R68, R71). -/
theorem decode_readsAs (raw : Word) : ReadsAs raw (decode raw) := by
  rcases nibble_cases (fieldN1 raw) with h | h | h | h | h | h | h | h | h | h | h | h | h | h | h | h
  · exact decode_family0_readsAs h
  · rw [decode_family1 h]; exact .row rfl (packNNN_of_fieldN1 h)
  · rw [decode_family2 h]; exact .row rfl (packNNN_of_fieldN1 h)
  · rw [decode_family3 h]; exact .row rfl (packXKK_of_fieldN1 h)
  · rw [decode_family4 h]; exact .row rfl (packXKK_of_fieldN1 h)
  · rw [decode_family5 h]
    split
    · next hn => exact .row rfl (packXYN_of_fields h hn)
    · exact .unknown
  · rw [decode_family6 h]; exact .row rfl (packXKK_of_fieldN1 h)
  · rw [decode_family7 h]; exact .row rfl (packXKK_of_fieldN1 h)
  · rw [decode_family8 h]; exact decodeFamily8_readsAs h
  · rw [decode_family9 h]
    split
    · next hn => exact .row rfl (packXYN_of_fields h hn)
    · exact .unknown
  · rw [decode_familyA h]; exact .row rfl (packNNN_of_fieldN1 h)
  · have hx : fieldX raw = (fieldNNN raw).extractLsb 11 8 := by
      rw [← fieldX_packNNN (fieldN1 raw) (fieldNNN raw), packNNN_fields]
    rw [decode_familyB h]
    exact .row (wellFormed_jumpOffset_iff.2 hx) (packNNN_of_fieldN1 h)
  · rw [decode_familyC h]; exact .row rfl (packXKK_of_fieldN1 h)
  · rw [decode_familyD h]; exact .row rfl (packXYN_of_fieldN1 h)
  · rw [decode_familyE h]; exact decodeFamilyE_readsAs h
  · rw [decode_familyF h]; exact decodeFamilyF_readsAs h

/-- A decoded instruction is well-formed, and its word is the one decoded (R71). -/
theorem wellFormed_and_encode_of_decode {raw : Word} {i : Instr} (h : decode raw = .ok i) : i.WellFormed ∧ encode i = raw := by
  have hreads := decode_readsAs raw
  rw [h] at hreads
  cases hreads with
  | row hwf hword => exact ⟨hwf, hword⟩

/-- The one error of the decoder (R68). -/
theorem decode_error {raw : Word} {e : DecodeError} (h : decode raw = .error e) : e = .unknownInstruction raw := by
  have hreads := decode_readsAs raw
  rw [h] at hreads
  cases hreads with
  | unknown => rfl

/-! ### What an encoded word decodes to -/

/-- The word of a well-formed instruction decodes to the instruction (R66, R71). -/
theorem decode_encode {i : Instr} (h : i.WellFormed) : decode (encode i) = .ok i := by
  cases i with
  | clearScreen | ret => rfl
  | nativeCall nnn =>
    obtain ⟨hcls, hret⟩ := wellFormed_nativeCall_iff.1 h
    have hcls' : packNNN 0x0#4 nnn ≠ 0x00E0#16 := packNNN_ne hcls
    have hret' : packNNN 0x0#4 nnn ≠ 0x00EE#16 := packNNN_ne hret
    rw [encode, decode_family0 (fieldN1_packNNN _ _), if_neg hcls', if_neg hret', fieldNNN_packNNN]
  | jumpOffset nnn x =>
    obtain rfl := wellFormed_jumpOffset_iff.1 h
    simp [encode, decode_familyB]
  | jump nnn | call nnn | loadIndex nnn => simp [encode, decode]
  | skipEqImm x kk | skipNeqImm x kk | loadImm x kk | addImm x kk | random x kk => simp [encode, decode]
  | skipEqReg x y | skipNeqReg x y | draw x y n => simp [encode, decode]
  | move x y | or x y | and x y | xor x y | addReg x y | subReg x y | shiftRight x y | subnReg x y | shiftLeft x y =>
    simp [encode, decode_family8, decodeFamily8]
  | skipIfKeyDown x | skipIfKeyUp x => simp [encode, decode_familyE, decodeFamilyE]
  | _ x => simp [encode, decode_familyF, decodeFamilyF]

/-! ### The words that a match and mask select (R66) -/

/-- A word that selects a row by its high nibble is of that family. -/
theorem fieldN1_of_maskF000 {raw bits : Word} (h : raw &&& 0xF000#16 = bits) : fieldN1 raw = fieldN1 bits := by
  rw [← h, fieldN1_and]
  exact (and_nibble _).symm

/-- A word that selects a row by its high nibble and its low byte is of that family and has that low byte. -/
theorem fields_of_maskF0FF {raw bits : Word} (h : raw &&& 0xF0FF#16 = bits) :
    fieldN1 raw = fieldN1 bits ∧ fieldKK raw = fieldKK bits := by
  rw [← h, fieldN1_and, fieldKK_and]
  exact ⟨(and_nibble _).symm, (and_byte _).symm⟩

end Sys2Proof

/-! SUPPORT. The word at `PC`, and what the instructions that reach memory at `I` read and write there (20_memory.md R42 to R47). -/

namespace Sys2Proof.Machine

open Claims

/-! ### The word at `PC` (R45, R47) -/

/-- A fetch answers the word whose two bytes stand at `PC`, and only that word (R45, R47). -/
theorem wordAtPC_iff {s : State} {raw : Word} : WordAtPC s raw ↔ fetch s = some raw := by
  constructor
  · rintro ⟨hi, lo, hhi, hlo, hraw⟩
    obtain rfl : raw = wordOfBytes hi lo := BitVec.eq_of_toNat_eq (by rw [toNat_wordOfBytes]; omega)
    simp only [fetch, hhi, hlo]
  · intro hf
    rw [fetch_eq] at hf
    split at hf <;> cases hf
    next hpc =>
      have h0 : s.pc.toNat < Config.memSize := Nat.lt_of_le_of_lt hpc (by decide)
      have h1 : s.pc.toNat + 1 < Config.memSize := Nat.lt_of_le_of_lt (Nat.succ_le_succ hpc) (by decide)
      exact ⟨_, _, Memory.read_of_lt h0, Memory.read_of_lt h1, by rw [toNat_wordOfBytes, Nat.mul_comm]⟩

/-- A running step goes on with the fetched word (R81). -/
theorem step_of_fetch {s : State} {raw : Word} (hw : s.Running) (hf : fetch s = some raw) : step s = runWord raw s := by
  simp only [step, cycle, hw, hf]

/-- A placed word is the word fetched next (R45, R47; log 9). -/
theorem fetch_placeWord (raw : Word) {s : State} (hm : s.mem.wf) : fetch (placeWord raw s) = some raw := by
  have hpc : (placeWord raw s).pc.toNat ≤ 0xFFE := by
    simp only [placeWord]
    split
    · assumption
    · decide
  have hfit : (placeWord raw s).pc.toNat + [highByte raw, lowByte raw].length ≤ Config.memSize :=
    Nat.le_trans (Nat.add_le_add_right hpc 2) (by decide)
  refine wordAtPC_iff.1 ⟨highByte raw, lowByte raw, Memory.read_putAll_inside hm hfit Nat.zero_lt_two,
    Memory.read_putAll_inside hm hfit Nat.one_lt_two, ?_⟩
  rw [toNat_highByte, toNat_lowByte]
  omega

/-! ### A store at `I` (R43, R46) -/

/-- A store at `I` of `n + 1` bytes completes when its last byte is inside memory, and else fails (R46). -/
theorem storeAtI_outcome {bs : List Byte} {n : Nat} (hlen : bs.length = n + 1) (s : State) :
    (effAddr s n ≤ 4095 → ∃ t, storeAtI bs s = .next t) ∧ (effAddr s n > 4095 → storeAtI bs s = .fault .memoryOutOfBounds) := by
  have hfit : (bs = [] ∨ s.i.toNat + bs.length ≤ 4096) ↔ effAddr s n ≤ 4095 := by
    rw [← List.length_eq_zero_iff, hlen, effAddr]
    omega
  rw [storeAtI_eq]
  exact ⟨fun hle => ⟨_, if_pos (hfit.2 hle)⟩, fun hgt => if_neg (mt hfit.1 (Nat.not_le.2 hgt))⟩

section

variable {bs : List Byte} {s t : State} (h : storeAtI bs s = .next t)
include h

/-- The memory that a store at `I` leaves. -/
theorem storeAtI_mem : (bs = [] ∨ effAddr s 0 + bs.length ≤ 4096) ∧ t.mem = s.mem.putAll (effAddr s 0) bs := by
  rw [storeAtI_eq] at h
  split at h <;> cases h
  next hfit => exact ⟨hfit, rfl⟩

/-- A store at `I` leaves its bytes from `I` upward. -/
theorem read_of_storeAtI (hm : s.mem.wf) {k : Nat} {b : Byte} (hk : bs[k]? = some b) :
    t.mem.read (effAddr s k) = some b := by
  obtain ⟨hlt, rfl⟩ := List.getElem?_eq_some_iff.1 hk
  obtain ⟨hfit, hmem⟩ := storeAtI_mem h
  have hfit := hfit.resolve_left fun hnil => by simp [hnil] at hlt
  rw [hmem]
  exact Memory.read_putAll_inside hm hfit hlt

/-- A store at `I` leaves every other byte. -/
theorem sameMemoryOutside_of_storeAtI (hm : s.mem.wf) : SameMemoryOutside (effAddr s 0) bs.length s t := by
  intro a ha
  obtain ⟨rfl | hfit, hmem⟩ := storeAtI_mem h <;> rw [hmem]
  · rfl
  · exact Memory.read_putAll_outside hm hfit ha

/-- A store at `I` writes no field but memory and `PC`. -/
theorem frame_of_storeAtI : SameRegs s t ∧ t.i = s.i ∧ t.pc = s.pc + 2#16 ∧
    SameStack s t ∧ SameDisplay s t ∧ SameTimers s t ∧ SameKeypad s t ∧ SameConfig s t := by
  obtain ⟨m, -, rfl⟩ := storeAtI_next h
  exact ⟨fun _ => rfl, rfl, rfl, ⟨rfl, fun _ => rfl⟩, fun _ _ => rfl, ⟨rfl, rfl⟩, ⟨rfl, rfl⟩, rfl, rfl, rfl⟩

end

/-- The three digits are decimal and make up the byte (R143). -/
theorem bcdDigits_spec (b : Byte) : ∃ h d o : Byte, bcdDigits b = [h, d, o] ∧
    h.toNat ≤ 9 ∧ d.toNat ≤ 9 ∧ o.toNat ≤ 9 ∧ 100 * h.toNat + 10 * d.toNat + o.toNat = b.toNat := by
  have := b.isLt
  refine ⟨_, _, _, rfl, ?_⟩
  simp only [BitVec.toNat_ofNat]
  omega

/-! ### A block read at `I` (R42, R46) -/

/-- A block read answers the byte of each of its addresses. -/
theorem getElem?_of_readBlock {m : Memory} {a n k : Nat} {bs : List Byte} (h : m.readBlock a n = some bs) (hk : k < n) :
    bs[k]? = m.read (a + k) := by
  rw [Memory.readBlock_eq] at h
  split at h <;> cases h
  next hfit =>
    have hfit := hfit.resolve_left (Nat.ne_zero_of_lt hk)
    rw [Memory.read_of_lt (by omega)]
    simp [hk]

/-- LoadRegisters completes when its last byte is inside memory, and else fails (R46, R145). -/
theorem exec_loadRegisters_outcome (x : RegNum) (s : State) :
    (effAddr s x.toNat ≤ 4095 → ∃ t, exec (.loadRegisters x) s = .next t) ∧
    (effAddr s x.toNat > 4095 → exec (.loadRegisters x) s = .fault .memoryOutOfBounds) := by
  have hfit : (blockLength x = 0 ∨ effAddr s 0 + blockLength x ≤ Config.memSize) ↔ effAddr s x.toNat ≤ 4095 := by
    simp only [blockLength, effAddr, Config.memSize]
    omega
  simp only [exec, execLoadRegisters, Memory.readBlock_eq, hfit]
  refine ⟨fun hle => ?_, fun hgt => ?_⟩
  · simp only [if_pos hle]
    exact ⟨_, rfl⟩
  · simp only [if_neg (Nat.not_le.2 hgt), raise]

/-- LoadRegisters leaves in each register up to `x` the byte of its address (R145). -/
theorem read_of_loadRegisters {x r : RegNum} {s t : State} (h : exec (.loadRegisters x) s = .next t)
    (hr : r.toNat ≤ x.toNat) : s.mem.read (effAddr s r.toNat) = some (t.reg r) := by
  obtain ⟨bs, hread, rfl⟩ := exec_loadRegisters_next h
  have hlen : bs.length = x.toNat + 1 := length_of_readBlock hread
  have hx : x.toNat < 16 := x.isLt
  have hbyte : bs[r.toNat]? = s.mem.read (effAddr s r.toNat) := getElem?_of_readBlock hread (Nat.lt_succ_of_le hr)
  rw [State.advance_reg, State.reg_setRegs _ _ _ (by omega), if_pos (Nat.zero_le _), Nat.sub_zero, ← hbyte,
    List.getElem?_eq_getElem (by omega)]
  rfl

/-! ### Draw (R151 to R153) -/

/-- The sprite has as many bytes as Draw's `n`. -/
@[simp] theorem length_spriteAt (n : Nibble) (s : State) : (spriteAt n s).length = n.toNat := by
  simp [spriteAt]

/-- What a block read at `I` answers is the sprite there (R151). -/
theorem eq_spriteAt_of_readBlock {n : Nibble} {s : State} {sprite : List Byte}
    (h : s.mem.readBlock (effAddr s 0) n.toNat = some sprite) : sprite = spriteAt n s := by
  have hlen : sprite.length = n.toNat := length_of_readBlock h
  refine List.ext_getElem (hlen.trans (length_spriteAt n s).symm) fun k hk _ => ?_
  have hbyte : sprite[k]? = s.mem.read (effAddr s k) := getElem?_of_readBlock h (hlen ▸ hk)
  simp [spriteAt, ← hbyte, hk]

/-- All that a Draw that completes does, with the sprite read byte by byte (R152). -/
theorem exec_draw_next_spriteAt {x y : RegNum} {n : Nibble} {s t : State} (h : exec (.draw x y n) s = .next t) :
    t = ((s.setDisp (blit (s.reg x) (s.reg y) (spriteAt n s) s.disp).1).setFlag
      (flagByte (blit (s.reg x) (s.reg y) (spriteAt n s) s.disp).2)).advance := by
  obtain ⟨sprite, hread, rfl⟩ := exec_draw_next h
  rw [eq_spriteAt_of_readBlock hread]

/-- Draw completes when it reads nothing or its last byte is inside memory, and else fails (R46, R152). -/
theorem exec_draw_outcome (x y : RegNum) (n : Nibble) (s : State) :
    (n = 0#4 ∨ effAddr s (n.toNat - 1) ≤ 4095 → ∃ t, exec (.draw x y n) s = .next t) ∧
    (¬ (n = 0#4 ∨ effAddr s (n.toNat - 1) ≤ 4095) → exec (.draw x y n) s = .fault .memoryOutOfBounds) := by
  have hn : n = 0#4 ↔ n.toNat = 0 := BitVec.toNat_inj.symm
  have hfit : (n.toNat = 0 ∨ effAddr s 0 + n.toNat ≤ Config.memSize) ↔ (n = 0#4 ∨ effAddr s (n.toNat - 1) ≤ 4095) := by
    rw [hn]
    simp only [effAddr, Config.memSize]
    omega
  simp only [exec, execDraw, Memory.readBlock_eq, hfit]
  refine ⟨fun hle => ?_, fun hgt => ?_⟩
  · simp only [if_pos hle]
    exact ⟨_, rfl⟩
  · simp only [if_neg hgt, raise]

/-- Flipping changes a pixel (R23). -/
theorem flip_ne (p : Pixel) : p.flip ≠ p := by cases p <;> decide

@[simp] theorem flagByte_eq_one_iff (c : Bool) : flagByte c = 0x01#8 ↔ c = true := by cases c <;> decide

@[simp] theorem flagByte_eq_zero_iff (c : Bool) : flagByte c = 0x00#8 ↔ ¬ c = true := by cases c <;> decide

/-! ### Rows of the opcode map -/

/-- A row `FX..` of the map: its low byte selects the instruction (R66). -/
theorem encodesAs_familyF {k : Byte} {f : RegNum → Instr}
    (h : ∀ raw, fieldKK raw = k → decodeFamilyF raw = .ok (f (fieldX raw))) :
    EncodesAs (packXKK 0xF#4 0x0#4 k) 0xF0FF#16 (fun w => f (w.extractLsb 11 8)) := by
  intro raw hraw
  obtain ⟨hn, hk⟩ := fields_of_maskF0FF hraw
  rw [fieldN1_packXKK] at hn
  rw [fieldKK_packXKK] at hk
  rw [decode_familyF hn]
  exact h raw hk

/-! ### The host's other events (R80, R92) -/

/-- A host event other than reset and cycle writes at most the registers, the timers, the pressed keys and the wait latch, and
reports nothing (R80, R92). -/
theorem applyEvent_host_eq {s : State} {e : Event} (hr : NotReset e) (hc : e ≠ .cycle) :
    ∃ v d b k w, applyEvent s e = ({ s with v := v, dt := d, st := b, keys := k, wait := w }, .silent) := by
  cases e with
  | reset p f q q' => exact absurd rfl (hr p f q q')
  | cycle => exact absurd rfl hc
  | tick =>
    obtain ⟨d, b, h⟩ := tick_eq s
    exact ⟨s.v, d, b, s.keys, s.wait, by rw [applyEvent, h]⟩
  | setKeys keys => exact ⟨s.v, s.dt, s.st, keys, s.wait, rfl⟩
  | keyEvent k =>
    obtain ⟨v, w, h⟩ := keyEvent_eq k s
    exact ⟨v, s.dt, s.st, s.keys, w, by rw [applyEvent, h]⟩

end Sys2Proof.Machine

namespace Sys2Proof

open Machine Claims

/-- Settles O8: the word at `PC` is the word fetched, and above 0xFFE there is none. -/
theorem fetchIsBigEndianAndBounded : Obligations.FetchIsBigEndianAndBounded := by
  refine ⟨fun s hpc => ?_, fun s hw hpc => ?_⟩
  · obtain ⟨raw, hf⟩ := Option.ne_none_iff_exists'.1 (mt fetch_eq_none.1 (Nat.not_lt.2 hpc))
    exact ⟨raw, hf, wordAtPC_iff.2 hf⟩
  · simp only [applyEvent, step, cycle_fetch_none hw (fetch_eq_none.2 hpc)]

/-- Settles O7: the word at `PC` is fetched, and decoding and encoding agree. -/
theorem stepRunsTheDecodedInstruction : Obligations.StepRunsTheDecodedInstruction := by
  intro s raw hw hraw
  have hf := wordAtPC_iff.1 hraw
  refine ⟨fun i hd => ⟨(wellFormed_and_encode_of_decode hd).1, cycle_decoded hw hf hd⟩, ?_⟩
  rintro i hi rfl
  exact cycle_decoded hw hf (decode_encode hi)

/-- Settles O12: the placed word is fetched, and the decoder reads it or rejects it. -/
theorem placedWordRunsNext : Obligations.PlacedWordRunsNext := by
  intro s nbits w hm
  have hf : fetch (s.withFetchWord nbits w) = some (tableWord nbits w) := fetch_placeWord _ hm
  rw [decodeTableWord_eq]
  rcases hd : decode (tableWord nbits w) with e | i
  · rw [step, cycle_rejected rfl hf hd, decode_error hd]
    rfl
  · exact cycle_decoded rfl hf hd

/-- Settles O40: a store of the three digits. -/
theorem storeBCDResult : Obligations.StoreBCDResult := by
  refine ⟨encodesAs_familyF (k := 0x33#8) fun raw hk => by simp [decodeFamilyF, hk], fun x s hm => ?_⟩
  obtain ⟨h, d, o, hdigits, hh, hd, ho, hsum⟩ := bcdDigits_spec (s.reg x)
  have hexec : exec (.storeBCD x) s = storeAtI [h, d, o] s := congrArg (storeAtI · s) hdigits
  obtain ⟨hnext, hfault⟩ := storeAtI_outcome (bs := [h, d, o]) rfl s
  rw [hexec]
  refine ⟨fun hle => ?_, hfault⟩
  obtain ⟨t, ht⟩ := hnext hle
  exact ⟨t, h, d, o, ht, read_of_storeAtI ht hm rfl, read_of_storeAtI ht hm rfl, read_of_storeAtI ht hm rfl, hh, hd, ho, hsum,
    sameMemoryOutside_of_storeAtI ht hm, frame_of_storeAtI ht⟩

/-- Settles O41: a store of the register block. -/
theorem storeRegistersResult : Obligations.StoreRegistersResult := by
  refine ⟨encodesAs_familyF (k := 0x55#8) fun raw hk => by simp [decodeFamilyF, hk], fun x s hm => ?_⟩
  have hlen := length_regBlock x s
  obtain ⟨hnext, hfault⟩ := storeAtI_outcome hlen s
  refine ⟨fun hle => ?_, hfault⟩
  obtain ⟨t, ht⟩ := hnext hle
  exact ⟨t, ht, fun r hr => read_of_storeAtI ht hm (getElem?_regBlock x r s hr),
    hlen ▸ sameMemoryOutside_of_storeAtI ht hm, frame_of_storeAtI ht⟩

/-- Settles O42: a block read, byte by byte into the registers. -/
theorem loadRegistersResult : Obligations.LoadRegistersResult := by
  refine ⟨encodesAs_familyF (k := 0x65#8) fun raw hk => by simp [decodeFamilyF, hk], fun x s => ?_⟩
  obtain ⟨hnext, hfault⟩ := exec_loadRegisters_outcome x s
  refine ⟨fun hle => ?_, hfault⟩
  obtain ⟨t, ht⟩ := hnext hle
  refine ⟨t, ht, fun r => read_of_loadRegisters ht, fun r hr => ?_, ?_⟩
  · by_contra hne
    exact absurd (loadRegisters_changes ht hne) (Nat.not_le.2 hr)
  · obtain ⟨bs, -, rfl⟩ := exec_loadRegisters_next ht
    obtain ⟨v, hv⟩ := s.setRegs_eq 0 bs
    rw [hv]
    exact ⟨rfl, rfl, fun _ => rfl, ⟨rfl, fun _ => rfl⟩, fun _ _ => rfl, ⟨rfl, rfl⟩, ⟨rfl, rfl⟩, rfl, rfl, rfl⟩

/-- Settles O44: the two stored bytes are the word at the new `PC`. -/
theorem storedWordIsExecutedNext : Obligations.StoredWordIsExecutedNext := by
  intro x r q s t hm hw h hq hqr hpc
  have ht : storeAtI (regBlock x s) s = .next t := h
  have hhi := read_of_storeAtI ht hm (getElem?_regBlock x r s (by omega))
  have hlo := read_of_storeAtI ht hm (getElem?_regBlock x q s hq)
  obtain ⟨-, -, -, -, -, -, hkeypad, -⟩ := frame_of_storeAtI ht
  have hword : WordAtPC t (s.reg r ++ s.reg q) := by
    refine ⟨s.reg r, s.reg q, hpc ▸ hhi, ?_, ?_⟩
    · rw [hpc]
      rw [hqr] at hlo
      exact hlo
    · rw [toNat_append]
      omega
  exact step_of_fetch (hkeypad.2.trans hw) (wordAtPC_iff.1 hword)

/-- Settles O48: the sprite at `I` is blitted, and the hit is the flag. -/
theorem drawResult : Obligations.DrawResult := by
  refine ⟨fun raw h => decode_familyD (fieldN1_of_maskF000 h), fun x y n s => ?_⟩
  obtain ⟨hnext, hfault⟩ := exec_draw_outcome x y n s
  refine ⟨fun hle => ?_, fun hn hgt => hfault (not_or.2 ⟨hn, Nat.not_le.2 hgt⟩)⟩
  obtain ⟨t, ht⟩ := hnext hle
  have hlen : (spriteAt n s).length ≤ 32 := by
    have := n.isLt
    rw [length_spriteAt]
    omega
  have hpixel := blit_pixel (s.reg x) (s.reg y) (spriteAt n s) hlen s.disp
  have hhit := blit_hit (s.reg x) (s.reg y) (spriteAt n s) hlen s.disp
  refine ⟨t, ht, ?_⟩
  obtain rfl := exec_draw_next_spriteAt ht
  refine ⟨fun row col => ⟨fun hc => ?_, (hpixel row col).2⟩, ?_, ?_, fun r hr => by simp [hr], rfl, rfl, fun _ => rfl,
    ⟨rfl, fun _ => rfl⟩, ⟨rfl, rfl⟩, ⟨rfl, rfl⟩, rfl, rfl, rfl⟩
  · exact ((hpixel row col).1 hc).trans_ne (flip_ne _)
  · simpa using hhit
  · simpa using not_congr hhit

/-- Settles O58: such an event writes none of these fields. -/
theorem hostEventsTouchOnlyTheirOwn : Obligations.HostEventsTouchOnlyTheirOwn := by
  intro s e hr hc
  obtain ⟨v, d, b, k, w, h⟩ := applyEvent_host_eq (s := s) hr hc
  rw [h]
  exact ⟨fun _ => rfl, fun _ _ => rfl, ⟨rfl, fun _ => rfl⟩, rfl, rfl, ⟨rfl, rfl, rfl⟩, rfl⟩

end Sys2Proof

/-! SUPPORT. The decoder against the opcode map: the words of a row decode to the row's instruction with the word's fields, no word
selects two rows, and the words of no row are the unassigned ones, counted family by family (30_encoding.md R65 to R69). -/

namespace Sys2Proof

open Claims

/-! ### The words of a row (R62, R66) -/

/-- A word that selects a row by its high and its low nibble is of that family and has that low nibble. -/
theorem fields_of_maskF00F {raw bits : Word} (h : raw &&& 0xF00F#16 = bits) :
    fieldN1 raw = fieldN1 bits ∧ fieldN raw = fieldN bits := by
  rw [← h, fieldN1_and, fieldN_and]
  exact ⟨(and_nibble _).symm, (and_nibble _).symm⟩

/-- A row whose family alone selects it (formats NNN, XKK and XYN). -/
theorem encodesAs_family {bits : Word} {f : Word → Instr}
    (h : ∀ {raw}, fieldN1 raw = fieldN1 bits → decode raw = .ok (f raw)) :
    EncodesAs bits 0xF000#16 f :=
  fun _ hraw => h (fieldN1_of_maskF000 hraw)

/-- A row of format XY with a literal low nibble: its words are the words of its instructions, which decode back. -/
theorem encodesAs_formatXY {bits : Word} (f : RegNum → RegNum → Instr) (hwf : ∀ x y, (f x y).WellFormed := by intros; rfl)
    (henc : ∀ x y, encode (f x y) = packXYN (fieldN1 bits) x y (fieldN bits) := by intros; rfl) :
    EncodesAs bits 0xF00F#16 (fun w => f (w.extractLsb 11 8) (w.extractLsb 7 4)) := by
  intro raw hraw
  obtain ⟨hn1, hn⟩ := fields_of_maskF00F hraw
  have hword : encode (f (fieldX raw) (fieldY raw)) = raw := (henc _ _).trans (packXYN_of_fields hn1 hn)
  exact (congrArg decode hword).symm.trans (decode_encode (hwf _ _))

/-- A row of format X with a literal low byte: its words are the words of its instructions, which decode back. -/
theorem encodesAs_formatX {bits : Word} (f : RegNum → Instr) (hwf : ∀ x, (f x).WellFormed := by intros; rfl)
    (henc : ∀ x, encode (f x) = packXKK (fieldN1 bits) x (fieldKK bits) := by intros; rfl) :
    EncodesAs bits 0xF0FF#16 (fun w => f (w.extractLsb 11 8)) := by
  intro raw hraw
  obtain ⟨hn1, hkk⟩ := fields_of_maskF0FF hraw
  have hword : encode (f (fieldX raw)) = raw := (henc _).trans (packXKK_of_fields hn1 hkk)
  exact (congrArg decode hword).symm.trans (decode_encode (hwf _))

/-! ### At most one row, and a row for every word that decodes (R65, R66) -/

/-- Two rows whose bits agree under both masks are one row, or one of them is a literal word that the other leaves out. -/
theorem opcodeMap_overlap : ∀ row ∈ opcodeMap, ∀ row' ∈ opcodeMap, row.bits &&& row'.mask = row'.bits &&& row.mask →
    row = row' ∨ row.mask = 0xFFFF#16 ∧ row.bits ∈ row'.except ∨ row'.mask = 0xFFFF#16 ∧ row'.bits ∈ row.except := by
  decide

/-- A word that selects a literal row is that row's word. -/
theorem eq_bits_of_selects {row : OpcodeRow} {raw : Word} (hmask : row.mask = 0xFFFF#16) (h : row.Selects raw) :
    raw = row.bits := by
  rw [← h.1, hmask]
  exact BitVec.and_allOnes.symm

/-- No word selects two rows (R65). -/
theorem row_unique {raw : Word} {row row' : OpcodeRow} (hr : row ∈ opcodeMap) (hr' : row' ∈ opcodeMap)
    (h : row.Selects raw) (h' : row'.Selects raw) : row = row' := by
  have hbits : row.bits &&& row'.mask = row'.bits &&& row.mask := by
    rw [← h.1, ← h'.1, BitVec.and_assoc, BitVec.and_assoc, BitVec.and_comm row.mask]
  rcases opcodeMap_overlap row hr row' hr' hbits with heq | ⟨hmask, hex⟩ | ⟨hmask, hex⟩
  · exact heq
  · exact absurd (eq_bits_of_selects hmask h ▸ hex) h'.2
  · exact absurd (eq_bits_of_selects hmask h' ▸ hex) h.2

open Laws.EncodesInItsRow in
/-- The word of a well-formed instruction selects the row of its mnemonic (R66). -/
theorem encodesInItsRow : ∀ i, Statement i
  | .clearScreen => clearScreen | .ret => ret | .nativeCall nnn => nativeCall nnn | .jump nnn => jump nnn
  | .call nnn => call nnn | .skipEqImm x kk => skipEqImm x kk | .skipNeqImm x kk => skipNeqImm x kk
  | .skipEqReg x y => skipEqReg x y | .loadImm x kk => loadImm x kk | .addImm x kk => addImm x kk
  | .move x y => move x y | .or x y => or x y | .and x y => and x y | .xor x y => xor x y | .addReg x y => addReg x y
  | .subReg x y => subReg x y | .shiftRight x y => shiftRight x y | .subnReg x y => subnReg x y
  | .shiftLeft x y => shiftLeft x y | .skipNeqReg x y => skipNeqReg x y | .loadIndex nnn => loadIndex nnn
  | .jumpOffset nnn x => jumpOffset nnn x | .random x kk => random x kk | .draw x y n => draw x y n
  | .skipIfKeyDown x => skipIfKeyDown x | .skipIfKeyUp x => skipIfKeyUp x | .readDelay x => readDelay x
  | .waitKey x => waitKey x | .setDelay x => setDelay x | .setSound x => setSound x | .addIndex x => addIndex x
  | .loadFontAddr x => loadFontAddr x | .storeBCD x => storeBCD x | .storeRegisters x => storeRegisters x
  | .loadRegisters x => loadRegisters x

/-- A word that selects no row is UnknownInstruction of it (R65, R68). -/
theorem decode_of_no_row {raw : Word} (h : ∀ row ∈ opcodeMap, ¬ row.Selects raw) :
    decode raw = .error (.unknownInstruction raw) := by
  rcases hd : decode raw with e | i
  · rw [decode_error hd]
  · obtain ⟨hwf, rfl⟩ := wellFormed_and_encode_of_decode hd
    obtain ⟨row, hmem, -, hsel⟩ := encodesInItsRow i hwf
    exact absurd hsel (h row hmem)

/-! ### The unassigned words (R68) -/

/-- Family `f` assigns no row to the words with the low byte `lo`: R68's list. -/
abbrev Unassigned (f lo : Nat) : Prop :=
  (f = 0x5 ∧ lo % 16 ≠ 0) ∨ (f = 0x8 ∧ lo % 16 ∈ [0x8, 0x9, 0xA, 0xB, 0xC, 0xD, 0xF]) ∨ (f = 0x9 ∧ lo % 16 ≠ 0) ∨
  (f = 0xE ∧ lo ∉ [0x9E, 0xA1]) ∨ (f = 0xF ∧ lo ∉ [0x07, 0x0A, 0x15, 0x18, 0x1E, 0x29, 0x33, 0x55, 0x65])

/-- The unassigned words of family 8. -/
theorem decodeFamily8_eq_unknown_iff (raw : Word) : decodeFamily8 raw = .error (.unknownInstruction raw) ↔
    (fieldN raw).toNat ∈ [0x8, 0x9, 0xA, 0xB, 0xC, 0xD, 0xF] := by
  rcases nibble_cases (fieldN raw) with h | h | h | h | h | h | h | h | h | h | h | h | h | h | h | h <;> simp [decodeFamily8, h]

/-- The unassigned words of family E. -/
theorem decodeFamilyE_eq_unknown_iff (raw : Word) : decodeFamilyE raw = .error (.unknownInstruction raw) ↔
    (fieldKK raw).toNat ∉ [0x9E, 0xA1] := by
  simp only [decodeFamilyE, ← BitVec.toNat_inj, BitVec.toNat_ofNat]
  split_ifs <;> simp [*]

/-- The unassigned words of family F. -/
theorem decodeFamilyF_eq_unknown_iff (raw : Word) : decodeFamilyF raw = .error (.unknownInstruction raw) ↔
    (fieldKK raw).toNat ∉ [0x07, 0x0A, 0x15, 0x18, 0x1E, 0x29, 0x33, 0x55, 0x65] := by
  simp only [decodeFamilyF, ← BitVec.toNat_inj, BitVec.toNat_ofNat]
  split_ifs <;> simp [*]

/-- The decoder rejects exactly the unassigned words (R68). -/
theorem decode_eq_unknown_iff (raw : Word) :
    decode raw = .error (.unknownInstruction raw) ↔ Unassigned (raw.toNat / 4096) (raw.toNat % 256) := by
  have hf : raw.toNat / 4096 = (fieldN1 raw).toNat := by
    rw [toNat_fieldN1]
    have := raw.isLt
    omega
  have hn : raw.toNat % 256 % 16 = (fieldN raw).toNat := by rw [toNat_fieldN]; omega
  rw [Unassigned, hf, hn, ← toNat_fieldKK]
  rcases nibble_cases (fieldN1 raw) with h | h | h | h | h | h | h | h | h | h | h | h | h | h | h | h
  · rw [decode_family0 h, h]; split_ifs <;> simp
  · simp [decode_family1 h, h]
  · simp [decode_family2 h, h]
  · simp [decode_family3 h, h]
  · simp [decode_family4 h, h]
  · simp [decode_family5 h, h, ← BitVec.toNat_inj]
  · simp [decode_family6 h, h]
  · simp [decode_family7 h, h]
  · simp [decode_family8 h, h, decodeFamily8_eq_unknown_iff]
  · simp [decode_family9 h, h, ← BitVec.toNat_inj]
  · simp [decode_familyA h, h]
  · simp [decode_familyB h, h]
  · simp [decode_familyC h, h]
  · simp [decode_familyD h, h]
  · simp [decode_familyE h, h, decodeFamilyE_eq_unknown_iff]
  · simp [decode_familyF h, h, decodeFamilyF_eq_unknown_iff]

theorem isUnknown_decode (raw : Word) : isUnknown (decode raw) = decide (Unassigned (raw.toNat / 4096) (raw.toNat % 256)) := by
  rw [Bool.eq_iff_iff, decide_eq_true_iff, ← decode_eq_unknown_iff]
  rcases hd : decode raw with e | i
  · simp [isUnknown, decode_error hd]
  · simp [isUnknown]

/-! ### Counting the words of a family (R67 to R69) -/

/-- A property of the remainder modulo `a`, counted over `b` whole periods. -/
theorem countP_range_mul_mod (p : Nat → Bool) (a b : Nat) :
    (List.range (a * b)).countP (fun k => p (k % a)) = b * (List.range a).countP p := by
  have hperiod : (List.range a).countP (fun k => p (k % a)) = (List.range a).countP p :=
    List.countP_congr fun k hk => by rw [Nat.mod_eq_of_lt (List.mem_range.1 hk)]
  induction b with
  | zero => simp
  | succ b ih =>
    rw [Nat.mul_succ, Nat.add_comm, List.range_add, List.countP_append, List.countP_map, hperiod, Nat.succ_mul,
      Nat.add_comm, ← ih]
    simp [Function.comp_def]

/-- Three properties that split a list count its length together. -/
theorem countP_add_countP_add_countP {α : Type} {p q r : α → Bool}
    (h : ∀ a, (if p a then 1 else 0) + (if q a then 1 else 0) + (if r a then 1 else 0) = 1) (l : List α) :
    l.countP p + l.countP q + l.countP r = l.length := by
  induction l with
  | nil => rfl
  | cons a l ih =>
    have ha := h a
    simp only [List.countP_cons, List.length_cons]
    omega

/-- Every word of a family is an Operation, a native call or unknown. -/
theorem familyCount_total (f : Nat) : familyCount isOperation f + familyCount isNativeCall f + familyCount isUnknown f = 4096 := by
  refine (countP_add_countP_add_countP (fun k => ?_) (List.range 4096)).trans List.length_range
  rcases decode (BitVec.ofNat 16 (4096 * f + k)) with e | i
  · rfl
  · cases i <;> rfl

/-- The number of the `k`-th word of family `f`. -/
theorem toNat_familyWord {f k : Nat} (hf : f < 16) (hk : k < 4096) : (BitVec.ofNat 16 (4096 * f + k)).toNat = 4096 * f + k := by
  rw [BitVec.toNat_ofNat]
  omega

/-- Sixteen words of a family share each low byte, and the low byte says whether they are assigned (R68). -/
theorem familyCount_isUnknown {f : Nat} (hf : f < 16) :
    familyCount isUnknown f = 16 * (List.range 256).countP fun lo => Unassigned f lo := by
  rw [← countP_range_mul_mod]
  refine List.countP_congr fun k hk => ?_
  have hk : k < 4096 := List.mem_range.1 hk
  have hfam : (4096 * f + k) / 4096 = f := by omega
  have hlow : (4096 * f + k) % 256 = k % 256 := by omega
  rw [isUnknown_decode, toNat_familyWord hf hk, hfam, hlow]

/-- A native call is read from the words of family 0 that are neither literal row (R67). -/
theorem isNativeCall_decode (raw : Word) :
    isNativeCall (decode raw) = decide (fieldN1 raw = 0x0#4 ∧ raw ≠ 0x00E0#16 ∧ raw ≠ 0x00EE#16) := by
  by_cases h : fieldN1 raw = 0x0#4
  · rw [decode_family0 h]
    split_ifs with hcls hret
    · simp [isNativeCall, hcls]
    · simp [isNativeCall, hret]
    · simp [isNativeCall, h, hcls, hret]
  · rcases hd : decode raw with e | i
    · simp [isNativeCall, h]
    cases i with
    | nativeCall nnn =>
      obtain ⟨-, rfl⟩ := wellFormed_and_encode_of_decode hd
      exact absurd (fieldN1_packNNN _ _) h
    | _ => simp [isNativeCall, h]

theorem isNativeCall_familyWord {f k : Nat} (hf : f < 16) (hk : k < 4096) :
    isNativeCall (decode (BitVec.ofNat 16 (4096 * f + k))) = decide (f = 0 ∧ k ≠ 0x0E0 ∧ k ≠ 0x0EE) := by
  simp only [isNativeCall_decode, ne_eq, ← BitVec.toNat_inj, toNat_fieldN1, toNat_familyWord hf hk, BitVec.toNat_ofNat]
  exact decide_eq_decide.2 (by omega)

/-- The numbers below `n` but for two. -/
theorem countP_range_two_left_out {a b n : Nat} (hab : b ≠ a) (ha : a < n) (hb : b < n) :
    (List.range n).countP (fun k => decide (k ≠ a ∧ k ≠ b)) = n - 2 := by
  have herase : (List.range n).filter (fun k => decide (k ≠ a ∧ k ≠ b)) = ((List.range n).erase a).erase b := by
    rw [(List.nodup_range.erase a).erase_eq_filter, List.nodup_range.erase_eq_filter, List.filter_filter]
    exact List.filter_congr fun k _ => by
      rw [Bool.eq_iff_iff]
      simp [and_comm]
  have hmem : b ∈ (List.range n).erase a := (List.mem_erase_of_ne hab).2 (List.mem_range.2 hb)
  rw [List.countP_eq_length_filter, herase, List.length_erase_of_mem hmem, List.length_erase_of_mem (List.mem_range.2 ha),
    List.length_range]
  rfl

/-- Family 0 is native calls but for its two literal rows, and no other family has any (R67). -/
theorem familyCount_isNativeCall {f : Nat} (hf : f < 16) : familyCount isNativeCall f = if f = 0 then 4094 else 0 := by
  have hnative : familyCount isNativeCall f = (List.range 4096).countP fun k => decide (f = 0 ∧ k ≠ 0x0E0 ∧ k ≠ 0x0EE) :=
    List.countP_congr fun k hk => by rw [isNativeCall_familyWord hf (List.mem_range.1 hk)]
  rw [hnative]
  split_ifs with h0
  · have htwo := countP_range_two_left_out (a := 0x0E0) (b := 0x0EE) (n := 4096) (by decide) (by decide) (by decide)
    simpa only [h0, true_and] using htwo
  · simp [h0]

/-- What is neither a native call nor unknown is an Operation (R69). -/
theorem familyCount_isOperation (f : Nat) :
    familyCount isOperation f = 4096 - familyCount isNativeCall f - familyCount isUnknown f := by
  have := familyCount_total f
  omega

end Sys2Proof

namespace Sys2Proof

open Machine Claims

/-- Settles O2: the word decodes back, and so do its two bytes, which the decoder puts together again. -/
theorem decodeOfEncodeIsTheInstruction : Obligations.DecodeOfEncodeIsTheInstruction := by
  intro i hi
  refine ⟨decode_encode hi, fun rest => ?_⟩
  exact (decodeBytes_bytes _ _).trans (congrArg _ (decode_encode hi))

/-- Settles O3: the decoder answers a well-formed instruction whose word is the one it read. -/
theorem encodeOfDecodeIsTheWord : Obligations.EncodeOfDecodeIsTheWord := fun _ _ => wellFormed_and_encode_of_decode

/-- Settles O4: the families' rows row by row, then uniqueness and the words of no row. -/
theorem decoderFollowsTheOpcodeMap : Obligations.DecoderFollowsTheOpcodeMap := by
  refine ⟨⟨rfl, rfl⟩, fun raw hraw hcls hret s => ?native,
    encodesAs_family decode_family1, encodesAs_family decode_family2, encodesAs_family decode_family3,
    encodesAs_family decode_family4, encodesAs_formatXY .skipEqReg, encodesAs_family decode_family6,
    encodesAs_family decode_family7, encodesAs_formatXY .move, encodesAs_formatXY .or, encodesAs_formatXY .and,
    encodesAs_formatXY .xor, encodesAs_formatXY .addReg, encodesAs_formatXY .subReg, encodesAs_formatXY .shiftRight,
    encodesAs_formatXY .subnReg, encodesAs_formatXY .shiftLeft, encodesAs_formatXY .skipNeqReg,
    encodesAs_family decode_familyA, encodesAs_family decode_familyB, encodesAs_family decode_familyC,
    encodesAs_family decode_familyD, encodesAs_formatX .skipIfKeyDown, encodesAs_formatX .skipIfKeyUp,
    encodesAs_formatX .readDelay, encodesAs_formatX .waitKey, encodesAs_formatX .setDelay, encodesAs_formatX .setSound,
    encodesAs_formatX .addIndex, encodesAs_formatX .loadFontAddr, encodesAs_formatX .storeBCD,
    encodesAs_formatX .storeRegisters, encodesAs_formatX .loadRegisters,
    fun raw row hr row' hr' => row_unique hr hr', fun raw => decode_of_no_row⟩
  case native =>
    have hd : decode raw = .ok (.nativeCall (fieldNNN raw)) := by
      rw [decode_family0 (fieldN1_of_maskF000 hraw), if_neg hcls, if_neg hret]
    simp only [runWord, hd]
    rfl

/-- Settles O5: the decoder's one error, on the words that R68 lists. -/
theorem unknownWordsAreTheUnassignedOnes : Obligations.UnknownWordsAreTheUnassignedOnes := by
  refine ⟨fun raw e => decode_error, fun raw => ?_⟩
  have hn : raw.toNat % 256 % 16 = raw.toNat % 16 := by omega
  rw [decode_eq_unknown_iff, Unassigned, hn]

/-- Settles O1: each word decoded. -/
theorem wordsOfEachFormatDecode : Obligations.WordsOfEachFormatDecode := by
  unfold Obligations.WordsOfEachFormatDecode
  decide

/-- Settles O6: the native calls and the unknown words counted, the Operations what they leave, and the sums of the lists. -/
theorem decoderWordCounts : Obligations.DecoderWordCounts := by
  have hnative : (List.range 16).map (familyCount isNativeCall) = (List.range 16).map fun f => if f = 0 then 4094 else 0 :=
    List.map_congr_left fun f hf => familyCount_isNativeCall (List.mem_range.1 hf)
  have hunknown : (List.range 16).map (familyCount isUnknown) =
      [0, 0, 0, 0, 0, 3840, 0, 0, 1792, 3840, 0, 0, 0, 0, 4064, 3952] := by
    rw [List.map_congr_left fun f hf => familyCount_isUnknown (List.mem_range.1 hf)]
    decide +kernel
  have hop : (List.range 16).map (familyCount isOperation) = List.zipWith (4096 - · - ·)
      ((List.range 16).map (familyCount isNativeCall)) ((List.range 16).map (familyCount isUnknown)) := by
    rw [List.zipWith_map, List.zipWith_self]
    exact List.map_congr_left fun f _ => familyCount_isOperation f
  unfold Obligations.DecoderWordCounts
  rw [hop, hnative, hunknown]
  decide

end Sys2Proof

/-! SUPPORT. What a cycle reports: the instruction that it executes, when it succeeds, and which words paint
(40_cycle_and_interface.md R82, R84 to R86). -/

namespace Sys2Proof.Machine

open Claims

/-- The instructions that paint (R85). -/
theorem paints_iff {i : Instr} : paints i = true ↔ i = .clearScreen ∨ ∃ x y n, i = .draw x y n := by
  cases i <;> simp [paints]

/-- The words of the instructions that paint: `00E0` and `DXYN` (R66, R85). -/
theorem paints_iff_of_decode {raw : Word} {i : Instr} (h : decode raw = .ok i) :
    paints i = true ↔ raw = 0x00E0#16 ∨ raw &&& 0xF000#16 = 0xD000#16 := by
  rw [paints_iff]
  constructor
  · obtain ⟨-, rfl⟩ := wellFormed_and_encode_of_decode h
    rintro (rfl | ⟨x, y, n, rfl⟩)
    · exact .inl rfl
    · exact .inr (packXYN_andF000 0xD#4 x y n)
  · rintro (rfl | hD)
    · cases h
      exact .inl rfl
    · rw [decode_familyD (fieldN1_of_maskF000 hD)] at h
      cases h
      exact .inr ⟨_, _, _, rfl⟩

/-- A suspended cycle executes no instruction (R82). -/
theorem nextInstr_suspended {s : State} {x : RegNum} (hw : s.wait = some x) : nextInstr s = none := by
  simp only [nextInstr, hw]

/-- A cycle that succeeds is a step, and reports its flags (R84). -/
theorem applyEvent_cycle_ok {s t : State} {o : CycleOutcome} (h : applyEvent s .cycle = (t, .ok o)) :
    step s = .next t ∧ o = cycleOutcome s t := by
  simp only [applyEvent] at h
  rcases hs : step s with t' | k | r <;> rw [hs] at h <;> cases h
  exact ⟨rfl, rfl⟩

/-- A cycle whose step completes executes a painting instruction exactly when it runs on a painting word (R85). -/
theorem nextInstr_paints_iff {s t : State} (h : step s = .next t) : (nextInstr s).any paints = true ↔
    s.Running ∧ ∃ raw, WordAtPC s raw ∧ (raw = 0x00E0#16 ∨ raw &&& 0xF000#16 = 0xD000#16) := by
  obtain ⟨x, hw, -⟩ | ⟨-, -, e⟩ | ⟨raw, err, -, -, -, e⟩ | ⟨raw, i, hw, hf, hd, -⟩ := step_cases s
  · simp [nextInstr_suspended hw, hw]
  · cases e.symm.trans h
  · cases e.symm.trans h
  · simp [State.Running, nextInstr_decoded hw hf hd, paints_iff_of_decode hd, wordAtPC_iff, hw, hf]

end Sys2Proof.Machine

namespace Sys2Proof

open Machine Claims

/-- Settles O57: the flags are computed from the instruction executed and from the wait after it. -/
theorem cycleOutcomeFlags : Obligations.CycleOutcomeFlags := by
  intro s t o h
  obtain ⟨hstep, rfl⟩ := applyEvent_cycle_ok h
  exact ⟨nextInstr_paints_iff hstep, Option.isSome_iff_ne_none⟩

/-- Settles O9: the word at `PC` is the one fetched, and the decoder rejects it. -/
theorem unknownWordEndsTheCycle : Obligations.UnknownWordEndsTheCycle := by
  intro s raw hw hraw hrow
  have hstep : step s = .fault (.unknownInstruction raw) :=
    cycle_rejected hw (wordAtPC_iff.1 hraw) (decode_of_no_row hrow)
  simp only [applyEvent, hstep]

/-- Settles O11: a suspended cycle is an empty step, and it executes no instruction. -/
theorem suspendedCycleIsEmpty : Obligations.SuspendedCycleIsEmpty := by
  intro s x hw
  have hstep : step s = .next s := cycle_suspended hw
  have hflags : cycleOutcome s s = ⟨false, true⟩ := by
    simp only [cycleOutcome, nextInstr_suspended hw, hw, Option.any_none, Option.isSome_some]
  exact ⟨hstep, by simp only [applyEvent, hstep, hflags]⟩

/-- Settles O37: the masked byte is written to a state in which only the place in RAND has moved. -/
theorem randomResult : Obligations.RandomResult := by
  refine ⟨encodesAs_family decode_familyC, fun x kk s => ?_⟩
  refine ⟨(s.drawByte.2.setReg x (s.drawByte.1 &&& kk)).advance, rfl, fun k _ => ?masked, rfl, fun r hr => ?regs, rfl, rfl,
    fun _ => rfl, ⟨rfl, fun _ => rfl⟩, fun _ _ => rfl, ⟨rfl, rfl⟩, ⟨rfl, rfl⟩, rfl, rfl⟩
  case masked => simp
  case regs => simp [hr]

end Sys2Proof

/-! SUPPORT. What the control transfers leave behind: the jumps, Return from a known depth, and a cycle on a native call
(41_control_flow.md R100 to R104). -/

namespace Sys2Proof.Machine

open Claims

/-- A word of row `0NNN` that is neither literal row is a native call (R66, R67). -/
theorem decode_nativeCall {raw : Word} (h : raw &&& 0xF000#16 = 0x0000#16) (hcls : raw ≠ 0x00E0#16) (hret : raw ≠ 0x00EE#16) :
    decode raw = .ok (.nativeCall (fieldNNN raw)) := by
  rw [decode_family0 (fieldN1_of_maskF000 h), if_neg hcls, if_neg hret]

/-- A cycle whose step is a fault reports the error and keeps the state (R87, R176). -/
theorem applyEvent_cycle_fault {s : State} {k : Fault} (h : step s = .fault k) : applyEvent s .cycle = (s, .err k) := by
  simp only [applyEvent, h]

/-- An immediate used as a target is its own value (R63). -/
theorem toNat_zeroExtend_imm (nnn : Imm12) : (nnn.zeroExtend 16).toNat = nnn.toNat :=
  BitVec.toNat_setWidth_of_le (by decide)

/-- The sum of an immediate and a byte fits 16 bits (R17, R104). -/
theorem toNat_imm_add_byte (nnn : Imm12) (b : Byte) :
    (nnn.zeroExtend 16 + b.zeroExtend 16).toNat = nnn.toNat + b.toNat := by
  rw [BitVec.toNat_add, toNat_zeroExtend_imm, BitVec.toNat_setWidth_of_le (by decide)]
  omega

/-- The register that JumpOffset adds, chosen by `Q_JUMP` (R104). -/
theorem jumpOffsetReg_eq (x : RegNum) (s : State) : jumpOffsetReg x s = s.reg (if s.qJump then x else 0x0#4) :=
  (apply_ite s.reg _ _ _).symm

/-- A jump writes `PC` alone (R16). -/
theorem frame_of_jumpTo (s : State) (target : Word) :
    SameRegs s (s.jumpTo target) ∧ (s.jumpTo target).i = s.i ∧ RestSame s (s.jumpTo target) :=
  ⟨fun _ => rfl, rfl, fun _ => rfl, ⟨rfl, fun _ => rfl⟩, fun _ _ => rfl, ⟨rfl, rfl⟩, ⟨rfl, rfl⟩, rfl, rfl, rfl⟩

/-- A state that differs at most in the call stack and `PC` has every other field as before (R20, R21). -/
theorem frame_of_stack_pc {s t : State} (h : t = { s with stack := t.stack, sp := t.sp, pc := t.pc }) :
    SameRegs s t ∧ t.i = s.i ∧ SameMemory s t ∧ SameDisplay s t ∧ SameTimers s t ∧ SameKeypad s t ∧ SameConfig s t := by
  rw [h]
  exact ⟨fun _ => rfl, rfl, fun _ => rfl, fun _ _ => rfl, ⟨rfl, rfl⟩, ⟨rfl, rfl⟩, rfl, rfl, rfl⟩

/-- Return with `k + 1` addresses held pops entry `k` (R21, R101). -/
theorem exec_ret_of_succ {s : State} (k : Fin 16) (h : s.sp.val = k.val + 1) :
    exec .ret s = .next { s with sp := k.castSucc, pc := s.stack[k] } := by
  have hk : s.sp.val - 1 = k.val := by omega
  rw [exec_ret_of_pos (by omega) (by omega)]
  simp only [hk]
  rfl

end Sys2Proof.Machine

namespace Sys2Proof

open Machine Claims

/-- Settles O10: the word decodes to the native call, whose meaning is the error. -/
theorem nativeCallAlwaysStops : Obligations.NativeCallAlwaysStops := by
  refine ⟨fun _ _ => rfl, fun raw => decode_nativeCall, fun s raw hw hraw h hcls hret => ?_⟩
  exact applyEvent_cycle_fault (cycle_decoded hw (wordAtPC_iff.1 hraw) (decode_nativeCall h hcls hret))

/-- Settles O26: a jump to the immediate. -/
theorem jumpResult : Obligations.JumpResult :=
  ⟨encodesAs_family decode_family1, fun nnn s => ⟨_, rfl, toNat_zeroExtend_imm nnn, frame_of_jumpTo s _⟩⟩

/-- Settles O27: a jump to a sum that fits 16 bits. -/
theorem jumpOffsetResult : Obligations.JumpOffsetResult := by
  refine ⟨encodesAs_family decode_familyB, fun nnn x s => ⟨_, rfl, ?_, frame_of_jumpTo s _⟩⟩
  rw [← jumpOffsetReg_eq]
  exact toNat_imm_add_byte nnn (jumpOffsetReg x s)

/-- Settles O28: one push or pop each, and the two ends of the stack. -/
theorem callAndReturnResults : Obligations.CallAndReturnResults := by
  refine ⟨encodesAs_family decode_family2, rfl, fun nnn s hs => ?call, fun nnn s => exec_call_of_full nnn,
    fun s k hk => ?ret, fun s => exec_ret_of_zero⟩
  case call =>
    refine ⟨_, exec_call_of_lt nnn hs, toNat_zeroExtend_imm nnn, rfl, Vector.getElem_set_self hs, fun k hk => ?_,
      frame_of_stack_pc rfl⟩
    exact Vector.getElem_set_ne hs k.isLt (Ne.symm hk)
  case ret => exact ⟨_, exec_ret_of_succ k hk, rfl, rfl, fun _ => rfl, frame_of_stack_pc rfl⟩

/-- Settles O29: Return pops the one entry that Call pushed, the entries below it never having been written. -/
theorem callThenReturnRoundTrips : Obligations.CallThenReturnRoundTrips := by
  rintro nnn s t u h ⟨hsp, hstack⟩
  obtain ⟨hs, rfl⟩ := exec_call_next h
  have hdepth : u.sp.val = s.sp.val + 1 := congrArg Fin.val hsp
  refine ⟨_, exec_ret_of_succ ⟨s.sp.val, hs⟩ hdepth, ?top, rfl, fun k hk => ?older⟩
  case top => exact (hstack ⟨s.sp.val, hs⟩).trans (Vector.getElem_set_self hs)
  case older => exact (hstack k).trans (Vector.getElem_set_ne hs k.isLt (Nat.ne_of_gt hk))

end Sys2Proof

/-! SUPPORT. What a skip on a condition leaves behind (42_skip.md R110 to R113). -/

namespace Sys2Proof.Machine

open Claims

/-- A skip writes `PC` alone, whether it skips or not (R16). -/
theorem frame_of_skipIf (s : State) (c : Bool) : SameRegs s (s.skipIf c) ∧ (s.skipIf c).i = s.i ∧ RestSame s (s.skipIf c) := by
  rw [State.skipIf_eq]
  exact frame_of_jumpTo s _

/-- A skip on a condition moves `PC` by 4 exactly when the condition holds, else by 2, and changes nothing else (R16). -/
theorem skipIf_decide_result (s : State) (p : Prop) [Decidable p] :
    (s.skipIf (decide p)).pc = s.pc + (if p then 4#16 else 2#16) ∧
      SameRegs s (s.skipIf (decide p)) ∧ (s.skipIf (decide p)).i = s.i ∧ RestSame s (s.skipIf (decide p)) := by
  refine ⟨?_, frame_of_skipIf s _⟩
  rw [State.skipIf_pc]
  simp only [decide_eq_true_eq]

end Sys2Proof.Machine

namespace Sys2Proof

open Machine Claims

/-- Settles O30: the rows' words, the unassigned words of families 5 and 9, and each instruction's skip on its condition. -/
theorem registerSkipResults : Obligations.RegisterSkipResults := by
  refine ⟨encodesAs_family decode_family3, encodesAs_family decode_family4, encodesAs_formatXY .skipEqReg,
    encodesAs_formatXY .skipNeqReg, fun raw hfam hn => (unknownWordsAreTheUnassignedOnes.2 raw).2 ?unassigned,
    fun x y kk s => ⟨⟨_, rfl, skipIf_decide_result s _⟩, ⟨_, rfl, skipIf_decide_result s _⟩,
      ⟨_, rfl, skipIf_decide_result s _⟩, ⟨_, rfl, skipIf_decide_result s _⟩⟩⟩
  case unassigned =>
    rcases hfam with h5 | h9
    · exact .inl ⟨h5, hn⟩
    · exact .inr (.inr (.inl ⟨h9, hn⟩))

end Sys2Proof

/-! SUPPORT. What a register result leaves behind, without and with a flag, and what the flags are as numbers
(43_alu.md R120 to R133). -/

namespace Sys2Proof.Machine

open Claims

/-! ### The state after a register result (R33, R122) -/

/-- A state that differs at most in the registers and `PC` has every other field as before. -/
theorem frame_of_regs_pc {s t : State} (h : t = { s with v := t.v, pc := t.pc }) : t.i = s.i ∧ RestSame s t := by
  rw [h]
  exact ⟨rfl, fun _ => rfl, ⟨rfl, fun _ => rfl⟩, fun _ _ => rfl, ⟨rfl, rfl⟩, ⟨rfl, rfl⟩, rfl, rfl, rfl⟩

/-- A result with no flag: what holds of the result holds of the destination, and only `PC` changes beside it. -/
theorem writeResult_result {x : RegNum} {r : Byte} {s : State} (P : Byte → Prop) (hr : P r) :
    ∃ t, writeResult x r s = .next t ∧ P (t.reg x) ∧
      SameRegsBut x s t ∧ t.pc = s.pc + 2#16 ∧ t.i = s.i ∧ RestSame s t := by
  refine ⟨_, rfl, ?dest, fun q hq => ?others, rfl, frame_of_regs_pc rfl⟩
  case dest => simpa using hr
  case others => simp [hq]

/-- A result with no flag, bit by bit. -/
theorem writeResult_bits {x : RegNum} {r : Byte} {s : State} {f : Nat → Bool} (hr : ∀ k, r.getLsbD k = f k) :
    ∃ t, writeResult x r s = .next t ∧ (∀ k, k < 8 → (t.reg x).getLsbD k = f k) ∧
      SameRegsBut x s t ∧ t.pc = s.pc + 2#16 ∧ t.i = s.i ∧ RestSame s t :=
  writeResult_result (fun b => ∀ k, k < 8 → b.getLsbD k = f k) fun k _ => hr k

/-- A result with a flag, both as numbers: the flag is written last, so it is what `V[0xF]` holds whatever the destination
(R122; log 16). -/
theorem writeResultFlag_result {x : RegNum} {r : Byte} {c : Bool} {s : State} {m n : Nat} (hr : r.toNat = m)
    (hc : (flagByte c).toNat = n) :
    ∃ t, writeResultFlag x r c s = .next t ∧ (x ≠ 0xF#4 → (t.reg x).toNat = m) ∧ (t.reg 0xF#4).toNat = n ∧
      SameRegsButFlagAnd x s t ∧ t.pc = s.pc + 2#16 ∧ t.i = s.i ∧ RestSame s t := by
  refine ⟨_, rfl, fun hx => ?dest, ?flag, fun q hq hF => ?others, rfl, frame_of_regs_pc rfl⟩
  case dest => simpa [hx] using hr
  case flag => simpa using hc
  case others => simp [hq, hF]

/-! ### Flags as numbers (R133) -/

/-- A flag is the number of its bit (R13). -/
theorem toNat_flagByte (c : Bool) : (flagByte c).toNat = c.toNat := by cases c <;> rfl

/-- The carry of a sum (R127). -/
theorem toNat_addCarry (a b : Byte) : (flagByte (addCarry a b)).toNat = if a.toNat + b.toNat > 255 then 1 else 0 := by
  rw [toNat_flagByte, addCarry, Bool.toNat, Bool.cond_decide]

/-- NOT borrow of a difference: 0 exactly when the first operand is the smaller one, so 1 on equal operands (R128, R130;
log 27). -/
theorem toNat_notBorrow (a b : Byte) : (flagByte (notBorrow a b)).toNat = if a.toNat < b.toNat then 0 else 1 := by
  rw [toNat_flagByte, notBorrow, Bool.toNat, Bool.cond_decide, ← ite_not]
  simp only [ge_iff_le, not_le]

/-- The bit that a right shift puts out is the odd bit (R129). -/
theorem toNat_shiftedOutRight (a : Byte) : (flagByte (shiftedOutRight a)).toNat = a.toNat % 2 := by
  rw [toNat_flagByte, shiftedOutRight, BitVec.getLsbD, Nat.toNat_testBit]
  omega

/-- The bit that a left shift puts out is the top bit (R131). -/
theorem toNat_shiftedOutLeft (a : Byte) : (flagByte (shiftedOutLeft a)).toNat = a.toNat / 128 := by
  rw [toNat_flagByte, shiftedOutLeft, BitVec.getLsbD, Nat.toNat_testBit]
  omega

/-! ### Results as numbers (R121, R128 to R131) -/

/-- A difference of bytes, modulo 256 (R128, R130). -/
theorem toNat_byte_sub (a b : Byte) : (a - b).toNat = (a.toNat + 256 - b.toNat) % 256 := by
  rw [BitVec.toNat_sub]
  omega

/-- A byte shifted right by one bit is halved (R129). -/
theorem toNat_byte_shiftRight_one (a : Byte) : (a >>> 1).toNat = a.toNat / 2 := by
  rw [BitVec.toNat_ushiftRight, Nat.shiftRight_one]

/-- A byte shifted left by one bit is doubled, modulo 256 (R131). -/
theorem toNat_byte_shiftLeft_one (a : Byte) : (a <<< 1).toNat = 2 * a.toNat % 256 := by
  rw [BitVec.toNat_shiftLeft, Nat.shiftLeft_eq, Nat.mul_comm]

end Sys2Proof.Machine

namespace Sys2Proof

open Machine Claims

/-- Settles O32: the rows' words, and three results with no flag. -/
theorem loadAddMoveResults : Obligations.LoadAddMoveResults :=
  ⟨encodesAs_family decode_family6, encodesAs_family decode_family7, encodesAs_formatXY .move, fun x y kk s =>
    ⟨writeResult_result (· = kk) rfl,
     writeResult_result (fun b => b.toNat = ((s.reg x).toNat + kk.toNat) % 256) (BitVec.toNat_add _ _),
     writeResult_result (· = s.reg y) rfl⟩⟩

/-- Settles O33: the rows' words, and three results with no flag, each known by its bits. -/
theorem logicResults : Obligations.LogicResults :=
  ⟨encodesAs_formatXY .or, encodesAs_formatXY .and, encodesAs_formatXY .xor, fun _ _ _ =>
    ⟨writeResult_bits fun _ => BitVec.getLsbD_or,
     writeResult_bits fun _ => BitVec.getLsbD_and,
     writeResult_bits fun _ => BitVec.getLsbD_xor⟩⟩

/-- Settles O34: the row's words, and the sum with its carry. -/
theorem addRegResult : Obligations.AddRegResult :=
  ⟨encodesAs_formatXY .addReg, fun _ _ _ => writeResultFlag_result (BitVec.toNat_add _ _) (toNat_addCarry _ _)⟩

/-- Settles O35: the rows' words, and one difference in both orders with its NOT borrow. -/
theorem subtractResults : Obligations.SubtractResults :=
  ⟨encodesAs_formatXY .subReg, encodesAs_formatXY .subnReg, fun _ _ _ =>
    ⟨writeResultFlag_result (toNat_byte_sub _ _) (toNat_notBorrow _ _),
     writeResultFlag_result (toNat_byte_sub _ _) (toNat_notBorrow _ _)⟩⟩

/-- Settles O36: the rows' words, and the two shifts of the value that `shiftSource` selects. -/
theorem shiftResults : Obligations.ShiftResults := by
  refine ⟨encodesAs_formatXY .shiftRight, encodesAs_formatXY .shiftLeft, fun x y s a ha => ?_⟩
  have hsrc : a = (shiftSource x y s).toNat := ha
  subst hsrc
  exact ⟨writeResultFlag_result (toNat_byte_shiftRight_one _) (toNat_shiftedOutRight _),
    writeResultFlag_result (toNat_byte_shiftLeft_one _) (toNat_shiftedOutLeft _)⟩

end Sys2Proof

/-! SUPPORT. What a write of `I` leaves behind, and the new values of `I` as numbers (44_index_and_memory.md R140 to R142). -/

namespace Sys2Proof.Machine

open Claims

/-- A write of `I` that advances writes `I` and `PC` alone (R16, R33). -/
theorem frame_of_setI_advance (s : State) (w : Word) :
    SameRegs s (s.setI w).advance ∧ (s.setI w).advance.pc = s.pc + 2#16 ∧ RestSame s (s.setI w).advance :=
  ⟨fun _ => rfl, rfl, fun _ => rfl, ⟨rfl, fun _ => rfl⟩, fun _ _ => rfl, ⟨rfl, rfl⟩, ⟨rfl, rfl⟩, rfl, rfl, rfl⟩

/-- The sum of a word and a byte, modulo 65536 (R141; log 17). -/
theorem toNat_word_add_byte (w : Word) (b : Byte) : (w + b.zeroExtend 16).toNat = (w.toNat + b.toNat) % 65536 := by
  rw [BitVec.toNat_add, BitVec.toNat_setWidth_of_le (by decide)]

/-- The glyph of a byte's low nibble, five bytes a glyph from 0x50 (R142; log 18). -/
theorem toNat_glyphAddr (b : Byte) : (glyphAddr b).toNat = 0x50 + 5 * (b.toNat % 16) := by
  have hnibble : ((b.extractLsb 3 0).zeroExtend 16).toNat = b.toNat % 16 := by
    rw [BitVec.toNat_setWidth_of_le (by decide), BitVec.extractLsb_toNat]
    rfl
  rw [glyphAddr, BitVec.toNat_add, BitVec.toNat_mul, hnibble]
  simp only [BitVec.toNat_ofNat]
  omega

end Sys2Proof.Machine

namespace Sys2Proof

open Machine Claims

/-- Settles O38: the row's words, and the immediate written to `I`. -/
theorem loadIndexResult : Obligations.LoadIndexResult :=
  ⟨encodesAs_family decode_familyA, fun nnn s => ⟨_, rfl, toNat_zeroExtend_imm nnn, frame_of_setI_advance s _⟩⟩

/-- Settles O39: the rows' words, and a sum and a glyph address written to `I`. -/
theorem indexArithmeticResults : Obligations.IndexArithmeticResults :=
  ⟨encodesAs_formatX .addIndex, encodesAs_formatX .loadFontAddr, fun x s =>
    ⟨⟨_, rfl, toNat_word_add_byte s.i (s.reg x), frame_of_setI_advance s _⟩,
     ⟨_, rfl, toNat_glyphAddr (s.reg x), frame_of_setI_advance s _⟩⟩⟩

/-- Settles O43: the bytes at `I` are still the stored registers, so they are inside memory and are what the load reads. -/
theorem storeThenLoadRestoresRegisters : Obligations.StoreThenLoadRestoresRegisters := by
  intro x s t u hm h hmem hi
  have ht : storeAtI (regBlock x s) s = .next t := h
  obtain ⟨-, hti, -⟩ := frame_of_storeAtI ht
  have haddr (k : Nat) : effAddr u k = effAddr s k := congrArg (·.toNat + k) (hi.trans hti)
  have hread (r : RegNum) (hr : r.toNat ≤ x.toNat) : u.mem.read (effAddr u r.toNat) = some (s.reg r) := by
    rw [haddr, hmem]
    exact read_of_storeAtI ht hm (getElem?_regBlock x r s hr)
  have hlast : effAddr u x.toNat < 4096 := (Memory.read_eq_some_iff.1 (hread x le_rfl)).1
  obtain ⟨w, hw⟩ := (exec_loadRegisters_outcome x u).1 (Nat.le_of_lt_succ hlast)
  exact ⟨w, hw, fun r hr => Option.some.inj ((read_of_loadRegisters hw hr).symm.trans (hread r hr))⟩

end Sys2Proof

/-! SUPPORT. Two blits of one sprite at one place (45_display.md R152). -/

namespace Sys2Proof.Machine

open Claims

/-- A flipped pixel is lit when it was Black (R23). -/
@[simp] theorem flip_eq_white_iff (p : Pixel) : p.flip = .white ↔ p = .black := by cases p <;> decide

/-- Draw's sprite has few enough bytes that no two of its rows wrap to one. -/
theorem length_spriteAt_le (n : Nibble) (s : State) : (spriteAt n s).length ≤ 32 := by
  have := n.isLt
  rw [length_spriteAt]
  omega

/-- The sprite at `I` depends on `I` and memory alone (R151). -/
theorem spriteAt_congr {s u : State} (n : Nibble) (hmem : SameMemory s u) (hi : u.i = s.i) : spriteAt n u = spriteAt n s := by
  simp only [spriteAt, effAddr, hi, hmem _]

section

variable {x0 y0 : Byte} {sprite : List Byte} (hlen : sprite.length ≤ 32) (d : Display)
include hlen

/-- A second blit flips back what the first one flipped (R152). -/
theorem blit_blit : (blit x0 y0 sprite (blit x0 y0 sprite d).1).1 = d := by
  refine display_ext fun row col => ?_
  obtain ⟨hflip, hkeep⟩ := blit_pixel x0 y0 sprite hlen d row col
  obtain ⟨hflip', hkeep'⟩ := blit_pixel x0 y0 sprite hlen (blit x0 y0 sprite d).1 row col
  by_cases hc : SpriteCovers x0 y0 sprite row col
  · rw [hflip' hc, hflip hc, flip_flip]
  · rw [hkeep' hc, hkeep hc]

/-- A second blit hits exactly when a 1 bit of the sprite lands on a pixel that was Black before the first (R152, R153). -/
theorem blit_blit_hit : (blit x0 y0 sprite (blit x0 y0 sprite d).1).2 = true ↔
    ∃ row col, SpriteCovers x0 y0 sprite row col ∧ d.pixel row col = .black := by
  rw [blit_hit x0 y0 sprite hlen]
  refine exists₂_congr fun row col => and_congr_right fun hc => ?_
  rw [(blit_pixel x0 y0 sprite hlen d row col).1 hc, flip_eq_white_iff]

end

end Sys2Proof.Machine

namespace Sys2Proof

open Machine Claims

/-- Settles O47: the cleared display, and a frame. -/
theorem clearScreenResult : Obligations.ClearScreenResult :=
  ⟨by decide, fun _ => ⟨_, rfl, pixel_allBlack, fun _ => rfl, rfl, rfl, fun _ => rfl, ⟨rfl, fun _ => rfl⟩, ⟨rfl, rfl⟩, ⟨rfl, rfl⟩,
    rfl, rfl, rfl⟩⟩

/-- Settles O49: the second Draw is a second blit of the same sprite at the same place. -/
theorem drawTwiceRestoresTheDisplay : Obligations.DrawTwiceRestoresTheDisplay := by
  intro x y n s t u w ht hdisp hmem hi hx hy hw
  obtain rfl := exec_draw_next_spriteAt ht
  obtain rfl := exec_draw_next_spriteAt hw
  have hud : u.disp = (blit (s.reg x) (s.reg y) (spriteAt n s) s.disp).1 := display_ext hdisp
  have hlen := length_spriteAt_le n s
  rw [spriteAt_congr n hmem hi, hx, hy, hud]
  refine ⟨fun row col => ?_, ?_⟩
  · exact congrArg (·.pixel row col) (blit_blit hlen s.disp)
  · simpa using blit_blit_hit hlen s.disp

end Sys2Proof

/-! SUPPORT. The key skips as skips on a condition, and what a timer write, a wait and a key event leave behind
(46_timers_and_keypad.md R160 to R167). -/

namespace Sys2Proof.Machine

open Claims

/-! ### The key skips (R163, R164) -/

/-- A key is down when its number is a key's number and it is in the pressed set; a value of 16 or more is no key (log 20). -/
theorem keyDown_eq_decide (s : State) (b : Byte) : keyDown s b = decide (b.toNat < 16 ∧ s.keys.getLsbD b.toNat = true) := by
  rw [keyDown, Bool.decide_and, Bool.decide_eq_true]

/-- A skip on the complement of a condition moves `PC` by 2 exactly when the condition holds, else by 4, and changes nothing
else (R16). -/
theorem skipIf_not_decide_result (s : State) (p : Prop) [Decidable p] :
    (s.skipIf (!decide p)).pc = s.pc + (if p then 2#16 else 4#16) ∧
      SameRegs s (s.skipIf (!decide p)) ∧ (s.skipIf (!decide p)).i = s.i ∧ RestSame s (s.skipIf (!decide p)) := by
  simpa only [decide_not, ite_not] using skipIf_decide_result s (¬ p)

/-! ### The timers (R90, R161, R162) -/

/-- A state that differs from the advanced one at most in the timers has every other field as before (R24, R25). -/
theorem frame_of_timers_advance {s t : State} (h : t = { s.advance with dt := t.dt, st := t.st }) :
    SameRegs s t ∧ t.pc = s.pc + 2#16 ∧ t.i = s.i ∧
      SameMemory s t ∧ SameStack s t ∧ SameDisplay s t ∧ SameKeypad s t ∧ SameConfig s t := by
  rw [h]
  exact ⟨fun _ => rfl, rfl, rfl, fun _ => rfl, ⟨rfl, fun _ => rfl⟩, fun _ _ => rfl, ⟨rfl, rfl⟩, rfl, rfl, rfl⟩

/-- The sound output is on exactly while the sound timer is nonzero (R90). -/
theorem soundOn_iff (s : State) : soundOn s = true ↔ s.st ≠ 0#8 := decide_eq_true_iff

/-! ### The wait for a key (R165, R167) -/

/-- A state that differs at most in the registers, the wait latch and `PC` has every other field as before (R27). -/
theorem frame_of_regs_wait_pc {s t : State} (h : t = { s with v := t.v, wait := t.wait, pc := t.pc }) :
    t.i = s.i ∧ SameMemory s t ∧ SameStack s t ∧ SameDisplay s t ∧ SameTimers s t ∧ SameConfig s t := by
  rw [h]
  exact ⟨rfl, fun _ => rfl, ⟨rfl, fun _ => rfl⟩, fun _ _ => rfl, ⟨rfl, rfl⟩, rfl, rfl, rfl⟩

/-- A key event in a wait for `V[x]` writes the key there and ends the wait (R167). -/
theorem keyEvent_of_suspended {s : State} {x : RegNum} (k : Nibble) (hw : s.wait = some x) :
    keyEvent k s = (s.setReg x (k.zeroExtend 8)).setWait none := by
  simp only [keyEvent, hw]

/-- A key event while running is ignored (R167; log 15). -/
theorem keyEvent_of_running {s : State} (k : Nibble) (hw : s.Running) : keyEvent k s = s := by
  simp only [keyEvent, hw]

end Sys2Proof.Machine

namespace Sys2Proof

open Machine Claims

/-- Settles O31: the rows' words, and a skip on the key's condition and one on its complement. -/
theorem keySkipResults : Obligations.KeySkipResults := by
  refine ⟨encodesAs_formatX .skipIfKeyDown, encodesAs_formatX .skipIfKeyUp, fun x s => ⟨⟨_, rfl, ?down⟩, ⟨_, rfl, ?up⟩⟩⟩
  case down =>
    rw [keyDown_eq_decide]
    exact skipIf_decide_result s _
  case up =>
    rw [keyDown_eq_decide]
    exact skipIf_not_decide_result s _

/-- Settles O50: the rows' words, a register result, and two timer writes. -/
theorem timerInstructionResults : Obligations.TimerInstructionResults :=
  ⟨encodesAs_formatX .readDelay, encodesAs_formatX .setDelay, encodesAs_formatX .setSound, fun _ s =>
    ⟨writeResult_result (· = s.dt) rfl,
     ⟨_, rfl, rfl, rfl, frame_of_timers_advance rfl⟩,
     ⟨_, rfl, rfl, soundOn_iff _, rfl, frame_of_timers_advance rfl⟩⟩⟩

/-- Settles O53: the row's words, the wait that WaitKey begins, and the key event in a wait and outside one. -/
theorem waitKeyAndKeyEventResults : Obligations.WaitKeyAndKeyEventResults := by
  refine ⟨encodesAs_formatX .waitKey, fun x s => ?wait, fun x k s t hw ht => ?key, fun k s hw => ?running⟩
  case wait => exact ⟨_, rfl, rfl, rfl, fun _ => rfl, rfl, frame_of_regs_wait_pc rfl⟩
  case key =>
    have hkey : t = (s.setReg x (k.zeroExtend 8)).setWait none := ht.symm.trans (keyEvent_of_suspended k hw)
    subst hkey
    refine ⟨?written, rfl, rfl, fun r hr => ?others, rfl, frame_of_regs_wait_pc rfl⟩
    case written =>
      rw [State.setWait_reg, State.reg_setReg, if_pos rfl]
      exact BitVec.toNat_setWidth_of_le (by decide)
    case others => rw [State.setWait_reg, State.reg_setReg, if_neg hr]
  case running => rw [applyEvent, keyEvent_of_running k hw]

end Sys2Proof

/-! SUPPORT. On what condition a result is an error: read off what a shared operation does on the condition and off it
(60_exceptions.md R178, R179). -/

namespace Sys2Proof.Machine

/-- A result that fails with one kind on a condition and else completes is never refused, and its errors are that kind on that
condition. -/
theorem fault_iff_of_outcome {r : Result} {c : Prop} {k : Fault} (hfail : c → r = .fault k) (hnext : ¬ c → ∃ t, r = .next t) :
    (∀ q, r ≠ .refused q) ∧ ∀ k', r = .fault k' ↔ c ∧ k' = k := by
  by_cases hc : c
  · simp [hfail hc, hc, eq_comm]
  · obtain ⟨t, rfl⟩ := hnext hc
    simp [hc]

/-- A store at `I` of `n + 1` bytes fails exactly when its last byte is beyond memory (R46, R178). -/
theorem storeAtI_fault_iff {bs : List Byte} {n : Nat} (hlen : bs.length = n + 1) (s : State) :
    (∀ q, storeAtI bs s ≠ .refused q) ∧ ∀ k, storeAtI bs s = .fault k ↔ effAddr s n > 4095 ∧ k = .memoryOutOfBounds := by
  obtain ⟨hnext, hfail⟩ := storeAtI_outcome hlen s
  exact fault_iff_of_outcome hfail fun h => hnext (Nat.not_lt.1 h)

end Sys2Proof.Machine

namespace Sys2Proof

open Machine Claims

/-- Settles O14: each instruction that can fail on its own condition, NativeCall always, the others never. -/
theorem instructionFailsExactlyAsListed : Obligations.InstructionFailsExactlyAsListed := by
  intro i s
  cases i with
  | nativeCall nnn =>
    have h := fault_iff_of_outcome (c := True) (fun _ => nativeCallAlwaysStops.1 nnn s) (absurd trivial ·)
    simpa using h
  | call nnn =>
    have h := fault_iff_of_outcome (exec_call_of_full nnn (s := s))
      fun hs => ⟨_, exec_call_of_lt nnn ((sp_full_or_lt s).resolve_left hs)⟩
    simpa using h
  | ret =>
    have h := fault_iff_of_outcome (exec_ret_of_zero (s := s)) fun hs =>
      have ⟨h0, hb⟩ := (sp_zero_or_pos s).resolve_left hs
      ⟨_, exec_ret_of_pos h0 hb⟩
    simpa using h
  | draw x y n =>
    have hc : (n ≠ 0#4 ∧ s.i.toNat + n.toNat - 1 > 4095) ↔ ¬ (n = 0#4 ∨ effAddr s (n.toNat - 1) ≤ 4095) := by
      have hn : n = 0#4 ↔ n.toNat = 0 := BitVec.toNat_inj.symm
      rw [ne_eq, hn, effAddr]
      omega
    obtain ⟨hnext, hfail⟩ := exec_draw_outcome x y n s
    have h := fault_iff_of_outcome (hfail ∘ hc.1) fun hn => hnext (not_not.1 (mt hc.2 hn))
    simpa using h
  | storeBCD x =>
    have hexec : exec (.storeBCD x) s = storeAtI (bcdDigits (s.reg x)) s := rfl
    rw [hexec]
    simpa [effAddr] using storeAtI_fault_iff (bs := bcdDigits (s.reg x)) rfl s
  | storeRegisters x =>
    have hexec : exec (.storeRegisters x) s = storeAtI (regBlock x s) s := rfl
    rw [hexec]
    simpa [effAddr] using storeAtI_fault_iff (length_regBlock x s) s
  | loadRegisters x =>
    obtain ⟨hnext, hfail⟩ := exec_loadRegisters_outcome x s
    have h := fault_iff_of_outcome hfail fun hn => hnext (Nat.not_lt.1 hn)
    simpa [effAddr] using h
  | _ => exact ⟨nofun, fun k => iff_of_false nofun (by simp)⟩

end Sys2Proof

/-! SUPPORT. Which cycles report an error, and why only a reset ends one: whether an instruction fails depends on the stack depth and
`I` alone (60_exceptions.md R170, R175 to R177). -/

namespace Sys2Proof.Machine

open Claims

/-! ### Reported errors (R170, R175, R176) -/

/-- A cycle reports exactly the error of its step (R81). -/
theorem applyEvent_cycle_err_iff {s : State} {k : Fault} : (applyEvent s .cycle).2 = .err k ↔ step s = .fault k := by
  simp only [applyEvent]
  cases step s <;> simp

/-- A cycle is refused exactly when its step is. -/
theorem applyEvent_cycle_refused_iff {s : State} {r : Refusal} : (applyEvent s .cycle).2 = .refused r ↔ step s = .refused r := by
  simp only [applyEvent]
  cases step s <;> simp

/-- No step is refused, and a program that is too large is no error of a step (R170, R175). -/
theorem step_not_refused_nor_programTooLarge (s : State) : (∀ r, step s ≠ .refused r) ∧ step s ≠ .fault .programTooLarge := by
  obtain ⟨x, -, e⟩ | ⟨-, -, e⟩ | ⟨raw, err, -, -, -, e⟩ | ⟨raw, i, -, -, -, e⟩ := step_cases s <;> rw [e]
  · exact ⟨nofun, nofun⟩
  · exact ⟨nofun, nofun⟩
  · cases err <;> exact ⟨nofun, nofun⟩
  · obtain ⟨hrefused, hfault⟩ := instructionFailsExactlyAsListed i s
    exact ⟨hrefused, by simp [hfault]⟩

/-- The one error of a reset (R175). -/
theorem resetEvent_error {program : List Byte} {font : Config.Font} {qShift qJump : Bool} {randPos : Nat} {k : Fault}
    (h : resetEvent program font qShift qJump randPos = .error k) : k = .programTooLarge := by
  unfold resetEvent at h
  split at h <;> cases h
  rfl

/-! ### Errors that repeat (R177) -/

/-- A step that is an error is the same error from every state that waits and fetches alike and has the same stack depth and `I`:
no error condition reads anything else (R179). -/
theorem step_fault_congr {s u : State} {k : Fault} (hwait : u.wait = s.wait) (hfetch : fetch u = fetch s) (hsp : u.sp = s.sp)
    (hi : u.i = s.i) (h : step s = .fault k) : step u = .fault k := by
  obtain ⟨x, -, e⟩ | ⟨hw, hf, e⟩ | ⟨raw, err, hw, hf, hd, e⟩ | ⟨raw, i, hw, hf, hd, e⟩ := step_cases s <;> rw [e] at h
  · cases h
  · exact (cycle_fetch_none (hwait.trans hw) (hfetch.trans hf)).trans h
  · exact (cycle_rejected (hwait.trans hw) (hfetch.trans hf) hd).trans h
  · rw [step, cycle_decoded (hwait.trans hw) (hfetch.trans hf) hd]
    rw [(instructionFailsExactlyAsListed i s).2] at h
    rwa [(instructionFailsExactlyAsListed i u).2, hsp, hi]

/-- A machine whose step is an error is running (R82). -/
theorem running_of_step_fault {s : State} {k : Fault} (h : step s = .fault k) : s.Running := by
  rcases hw : s.wait with _ | x
  · exact hw
  · cases (cycle_suspended hw).symm.trans h

/-- An error stays through every event but a reset: the failed cycle changes nothing, a key event finds the machine running, and
the timers and the pressed keys are no part of an error condition (R176, R177). -/
theorem step_fault_after_event {s : State} {k : Fault} {e : Event} (hr : NotReset e) (h : step s = .fault k) :
    step (applyEvent s e).1 = .fault k := by
  cases e with
  | reset p f q q' => exact absurd rfl (hr p f q q')
  | cycle => rwa [applyEvent_cycle_fault h]
  | tick =>
    obtain ⟨d, b, ht⟩ := tick_eq s
    rw [applyEvent, ht]
    exact step_fault_congr (s := s) rfl rfl rfl rfl h
  | setKeys keys => exact step_fault_congr (s := s) rfl rfl rfl rfl h
  | keyEvent x => rwa [applyEvent, keyEvent_of_running x (running_of_step_fault h)]

end Sys2Proof.Machine

namespace Sys2Proof

open Machine Claims

/-- Settles O15: the errors of a step and of a reset; the other events are silent. -/
theorem errorsAreTheClosedListAndChangeNothing : Obligations.ErrorsAreTheClosedListAndChangeNothing := by
  intro s e
  cases e with
  | reset program font qShift qJump =>
    simp only [applyEvent]
    rcases hres : resetEvent program font qShift qJump s.randPos with err | t
    · refine ⟨nofun, fun k hk => ?_⟩
      cases hk
      exact ⟨rfl, .inr ⟨fun hn => hn _ _ _ _ rfl, resetEvent_error hres⟩⟩
    · exact ⟨nofun, nofun⟩
  | cycle =>
    obtain ⟨hrefused, hlarge⟩ := step_not_refused_nor_programTooLarge s
    refine ⟨fun r hr => hrefused r (applyEvent_cycle_refused_iff.1 hr), fun k hk => ⟨applyEvent_cycle_err hk, .inl ⟨rfl, ?_⟩⟩⟩
    rintro rfl
    exact hlarge (applyEvent_cycle_err_iff.1 hk)
  | tick | setKeys keys | keyEvent k => exact ⟨nofun, nofun⟩

/-- Settles O16: every allowed event keeps the error, so every run of them does. -/
theorem errorRepeatsUntilReset : Obligations.ErrorRepeatsUntilReset := by
  intro s k h es hes
  have hstep : step (runEvents s es).1 = .fault k :=
    runEvents_keeps (P := (step · = .fault k)) (fun _ e he => step_fault_after_event (hes e he)) (applyEvent_cycle_err_iff.1 h)
  exact applyEvent_cycle_err_iff.2 hstep

/-- Settles O51: the two countdowns, and a frame. -/
theorem tickCountsBothTimersDown : Obligations.TickCountsBothTimersDown := by
  rintro s t rfl
  have hsound : soundOn (tick s) = true ↔ s.st.toNat > 1 := by
    rw [soundOn_iff, ← BitVec.toNat_ne_iff_ne, tick_st, BitVec.toNat_ofNat]
    omega
  refine ⟨tick_dt s, tick_st s, hsound, ?_⟩
  obtain ⟨d, b, h⟩ := tick_eq s
  rw [applyEvent, h]
  exact ⟨fun _ => rfl, rfl, rfl, fun _ => rfl, ⟨rfl, fun _ => rfl⟩, fun _ _ => rfl, ⟨rfl, rfl⟩, ⟨rfl, rfl, rfl⟩, rfl⟩

end Sys2Proof
